-- ==== Sys2Proof/Word.lean ====
section
/-! DEFINITION. The word types of the engine (spec/10_state.md R5, R8; spec/20_memory.md R24). -/

namespace Sys2Proof

/-- An 8-bit value: a register, a memory cell, an opcode or operand byte (R5, R24, R38). -/
abbrev Byte := BitVec 8

/-- The 9-bit program counter (R8). -/
abbrev Pc := BitVec 9

/-- A legal register index, 0..7 (R5). -/
abbrev Reg := Fin 8

end Sys2Proof
end

