-- ==== Sys2Proof/Config.lean ====
section
/-! DEFINITION. The engine's parameters. spec/00_scope.md R2 fixes every one of them, so nothing here is
left to an implementation and no free value is declared. -/

namespace Sys2Proof.Config

/-- MEMSIZE, the number of memory cells (R2, R24). -/
def memSize : Nat := 256

/-- NREG, the number of registers (R2, R5): legal register indices are below it. -/
def nreg : Nat := 8

/-- SP_INDEX, the register used as stack pointer (R2, R6). -/
def spIndex : Reg := 7

/-- SP_RESET (R2, R16). -/
def spReset : Byte := 0xF4

/-- PC_RESET (R2, R16). -/
def pcReset : Pc := 0

/-- What a memory cell holds that nothing has written since reset (R24, R37). -/
def memReset : Byte := 0x00

end Sys2Proof.Config
end

