-- ==== Sys2Proof/Syntax.lean ====
section
/-! DEFINITION. The instruction set: the 13 rows of spec/opcode_table.json (spec/30_encoding.md R42), in the
table's order. An operand is the whole operand byte (R41): a register operand may therefore hold a value
above 7, which executing the instruction answers with RegisterRangeError (R51). -/

namespace Sys2Proof

/-- An instruction as the decoder hands it to its handler: the handler and the operand bytes it uses (R40). -/
inductive Instr where
  /-- HLT, format F0 (R55). -/
  | hlt
  /-- LDI a, b: register index `a`, immediate `b`, format F2I (R57). -/
  | ldi (a b : Byte)
  /-- PRN a, format F1 (R58). -/
  | prn (a : Byte)
  /-- MUL a, b, format F2R (R71). -/
  | mul (a b : Byte)
  /-- ADD a, b, format F2R (R70). -/
  | add (a b : Byte)
  /-- PUSH a, format F1 (R76). -/
  | push (a : Byte)
  /-- POP a, format F1 (R77). -/
  | pop (a : Byte)
  /-- CALL a, format F1 (R83). -/
  | call (a : Byte)
  /-- RET, format F0. `r` is the `operand_a` latch, the byte that follows the one-byte instruction in memory
  and that its handler uses as a register index (R84, conflict C4). -/
  | ret (r : Byte)
  /-- CMP a, b, format F2R (R79). -/
  | cmp (a b : Byte)
  /-- JMP a, format F1 (R80). -/
  | jmp (a : Byte)
  /-- JEQ a, format F1 (R81). -/
  | jeq (a : Byte)
  /-- JNE a, format F1 (R82). -/
  | jne (a : Byte)
  deriving DecidableEq, Repr

end Sys2Proof
end

