-- ==== Sys2Proof/WellFormed.lean ====
section
/-! DEFINITION. Which instructions are well formed: every operand byte used as a register index is 0..7
(spec/30_encoding.md R41, spec/40_engine_cycle.md R51). LDI's immediate may be any byte. -/

namespace Sys2Proof

/-- The whole operand byte is a legal register index (R41: no masking, no reduction modulo 8). -/
def regByteOk (v : Byte) : Bool := decide (v.toNat < Config.nreg)

/-- The operand bytes an instruction uses as register indices, in the order they are checked (R51). -/
def Instr.registerBytes : Instr → List Byte
  | .hlt => []
  | .ldi a _ => [a]
  | .prn a => [a]
  | .mul a b => [a, b]
  | .add a b => [a, b]
  | .push a => [a]
  | .pop a => [a]
  | .call a => [a]
  | .ret r => [r]
  | .cmp a b => [a, b]
  | .jmp a => [a]
  | .jeq a => [a]
  | .jne a => [a]

/-- Every register operand is in range. -/
def Instr.wellFormed (i : Instr) : Bool := i.registerBytes.all regByteOk

end Sys2Proof
end

