-- ==== Sys2Proof/Decode.lean ====
section
/-! DEFINITION. The dispatch table, the decoder and the encoder (spec/30_encoding.md R38 to R47). -/

namespace Sys2Proof

/-! The 13 opcode bytes, written as the table of R42 writes them. -/

def opHlt : Byte := 0b00000001
def opLdi : Byte := 0b10000010
def opPrn : Byte := 0b01000111
def opMul : Byte := 0b10100010
def opAdd : Byte := 0b10100000
def opPush : Byte := 0b01000101
def opPop : Byte := 0b01000110
def opCall : Byte := 0b01010000
def opRet : Byte := 0b00010001
def opCmp : Byte := 0b10100111
def opJmp : Byte := 0b01010100
def opJeq : Byte := 0b01010101
def opJne : Byte := 0b01010110

/-- NOPS, `opcode[7:6]`: the number of operand bytes (R39). -/
def nops (opcode : Byte) : Nat := (opcode >>> 6).toNat

/-- PCM, `opcode[4]`: the instruction sets `pc` itself (R39; bit 5 takes no part, conflict C1). -/
def pcMutating (opcode : Byte) : Bool := opcode.getLsbD 4

/-- The dispatch table (R42, R44): the full opcode byte, and what it makes of the latches `operand_a` and
`operand_b`. A byte the instruction's definition does not use is dropped (R41). -/
def dispatchTable : List (Byte × (Byte → Byte → Instr)) :=
  [ (opHlt, fun _ _ => .hlt),
    (opLdi, fun a b => .ldi a b),
    (opPrn, fun a _ => .prn a),
    (opMul, fun a b => .mul a b),
    (opAdd, fun a b => .add a b),
    (opPush, fun a _ => .push a),
    (opPop, fun a _ => .pop a),
    (opCall, fun a _ => .call a),
    (opRet, fun a _ => .ret a),
    (opCmp, fun a b => .cmp a b),
    (opJmp, fun a _ => .jmp a),
    (opJeq, fun a _ => .jeq a),
    (opJne, fun a _ => .jne a) ]

/-- Why bytes are not an instruction. -/
inductive DecodeReject where
  /-- The byte is none of the 13 recognised opcodes (R43). The step answers it with DecodeError (R50). -/
  | unknownOpcode (opcode : Byte)
  /-- Fewer than the three bytes every fetch reads (R49). The machine never decodes such a list: its fetch
  raises MemoryRangeError first. -/
  | truncated
  deriving DecidableEq, Repr

/-- Decode of the three latches `IR`, `operand_a`, `operand_b` (R50). Operand bytes never make an encoding
illegal (R43). -/
def decode (ir a b : Byte) : Except DecodeReject Instr :=
  match dispatchTable.lookup ir with
  | some handler => .ok (handler a b)
  | none => .error (.unknownOpcode ir)

/-- Decode of the bytes at an address, lowest address first (R27): total on any list of bytes. -/
def decodeBytes : List Byte → Except DecodeReject Instr
  | ir :: a :: b :: _ => decode ir a b
  | _ => .error .truncated

/-- The opcode byte of an instruction (R42). -/
def Instr.opcode : Instr → Byte
  | .hlt => opHlt
  | .ldi _ _ => opLdi
  | .prn _ => opPrn
  | .mul _ _ => opMul
  | .add _ _ => opAdd
  | .push _ => opPush
  | .pop _ => opPop
  | .call _ => opCall
  | .ret _ => opRet
  | .cmp _ _ => opCmp
  | .jmp _ => opJmp
  | .jeq _ => opJeq
  | .jne _ => opJne

/-- The operand bytes encoded in the instruction, at `pc+1` and `pc+2` (R40). RET has none. -/
def Instr.operandBytes : Instr → List Byte
  | .hlt => []
  | .ldi a b => [a, b]
  | .prn a => [a]
  | .mul a b => [a, b]
  | .add a b => [a, b]
  | .push a => [a]
  | .pop a => [a]
  | .call a => [a]
  | .ret _ => []
  | .cmp a b => [a, b]
  | .jmp a => [a]
  | .jeq a => [a]
  | .jne a => [a]

/-- The bytes of an instruction, lowest address first (R38, R40): the opcode byte, then its operand bytes. -/
def encode (i : Instr) : List Byte := i.opcode :: i.operandBytes

/-- The byte after the instruction that its handler uses although it is no part of it: RET's register index
(R84). Empty for every other instruction. -/
def Instr.following : Instr → List Byte
  | .ret r => [r]
  | .hlt | .ldi _ _ | .prn _ | .mul _ _ | .add _ _ | .push _ | .pop _ | .call _ | .cmp _ _ | .jmp _ | .jeq _
  | .jne _ => []

/-- Byte `k` of a word numbered as spec/opcode_table.json numbers it, the first byte in bits 7..0. -/
def tableByte (w k : Nat) : Byte := BitVec.ofNat 8 (w / 256 ^ k)

/-- The three bytes a fetch reads where the word `w` of `nbits` bits lies and every bit above is 0. -/
def tableBytes (nbits w : Nat) : List Byte :=
  let v := w % 2 ^ nbits
  [tableByte v 0, tableByte v 1, tableByte v 2]

/-- What the decoder reads from an instruction of spec/opcode_table.json whose bits are `w`. -/
def decodeTableWord (nbits w : Nat) : Option Instr :=
  match decodeBytes (tableBytes nbits w) with
  | .ok i => some i
  | .error _ => none

end Sys2Proof
end

