-- ==== Sys2Proof/Machine/State.lean ====
section
/-! DEFINITION. The architectural state (spec/10_state.md R4), the errors an engine can record
(spec/60_exceptions.md R86), the outcomes of a step other than a next state, and the reset state (R16). -/

namespace Sys2Proof.Machine

/-- Which operand byte a RegisterRangeError reports (R51, R86). -/
inductive OperandSlot where
  | a
  | b
  deriving DecidableEq, Repr

/-- The sub-causes of ALUError (R86, R88). -/
inductive AluCause where
  | unsupportedOperation
  | divideByZero
  deriving DecidableEq, Repr

/-- The four errors with the information recorded in `FAULTED(e)` (R86). Each records the `pc` the step began
with (R54). -/
inductive EngineError where
  /-- The byte at `pc` is no recognised opcode (R87). -/
  | decodeError (pc : Pc) (opcode : Byte)
  /-- Raised by the ALU block (R88); no instruction reaches it (R72). -/
  | aluError (pc : Pc) (sub : AluCause)
  /-- A memory access at an address above 255 (R89). -/
  | memoryRange (pc : Pc) (addr : Nat)
  /-- An operand byte used as a register index is above 7 (R90). -/
  | registerRange (pc : Pc) (which : OperandSlot) (value : Byte)
  deriving DecidableEq, Repr

/-- The engine status (R13). -/
inductive Status where
  | running
  | halted
  | faulted (e : EngineError)
  deriving DecidableEq, Repr

/-- The memory: (address, byte) pairs with strictly rising addresses below 256 and no entry equal to what an
unlisted cell reads as (`Config.memReset`). `Memory.wf` in Machine/Ops.lean says so. -/
abbrev Memory := List Host.Cell

/-- The whole architectural state (R4). `IR` and the operand latches live only inside one step and are
values of the fetch, not fields (R10, D12). -/
structure State where
  /-- `mem[0..255]` (R24) -/
  mem : Memory
  /-- `x[0..7]` (R5) -/
  regs : Vector Byte 8
  /-- the program counter (R8) -/
  pc : Pc
  /-- the flags register `FL = 0b00000LGE` (R11) -/
  fl : Byte
  /-- the engine status (R13) -/
  status : Status
  /-- the output stream, oldest value first (R15) -/
  out : List Byte
  deriving DecidableEq, Repr

/-- Faults of the model, which would stop it with no next state. There is none: spec/60_exceptions.md R93
describes what each of the engine's four errors leaves behind, so each is a NEXT state whose status is
FAULTED(e) (`State.raise`). Nothing raises a value of this type, hence it is safe. -/
inductive Fault where
  deriving DecidableEq, Repr

/-- Refusals: instructions without a meaning. -/
inductive Refusal where
  /-- Raised by an arm of `exec` for an instruction that is not modelled yet. Safe: the model stops. No arm
  raises it: all 13 instructions have their meaning. -/
  | notModelled (mnemonic : String)
  deriving DecidableEq, Repr

/-- What a step of this machine answers. -/
abbrev Result := Host.Outcome State Fault Refusal

/-- The machine right after reset (R16, R103, R104): memory all zero, SP = 0xF4, pc = 0, RUNNING, no output.
x[0..6] = 0 and FL = 0 are the spec's own decisions D11 and D9. -/
def State.reset : State where
  mem := []
  regs := #v[0x00, 0x00, 0x00, 0x00, 0x00, 0x00, 0x00, Config.spReset]
  pc := Config.pcReset
  fl := 0x00
  status := .running
  out := []

end Sys2Proof.Machine
end

