-- ==== Sys2Proof/Machine/Ops.lean ====
section
/-! DEFINITION. The named operations over memory, registers, the program counter and the output stream;
entering an error (the engine's only exceptions); the advance phase. -/

namespace Sys2Proof.Machine

/-! ### Memory (spec/20_memory.md) -/

/-- What cell `addr` holds. An unlisted cell holds its reset value (R24, R32). -/
def Memory.read (m : Memory) (addr : Nat) : Byte :=
  match m with
  | [] => Config.memReset
  | (k, v) :: rest => if addr = k then v else Memory.read rest addr

/-- An entry for cell `addr`, unless `v` is what an unlisted cell reads as. -/
def Memory.entry (addr : Nat) (v : Byte) (rest : Memory) : Memory :=
  if v = Config.memReset then rest else (addr, v) :: rest

/-- `mem[addr] <- v`, keeping the canonical form (R25). -/
def Memory.write (m : Memory) (addr : Nat) (v : Byte) : Memory :=
  match m with
  | [] => Memory.entry addr v []
  | (k, w) :: rest =>
    if addr < k then Memory.entry addr v ((k, w) :: rest)
    else if addr = k then Memory.entry addr v rest
    else (k, w) :: Memory.write rest addr v

/-- Addresses at or above `lo`, strictly rising and inside the address space, and no entry equal to the
reset value. -/
def Memory.wfFrom (lo : Nat) : Memory → Bool
  | [] => true
  | (k, v) :: rest =>
    decide (lo ≤ k) && decide (k < Config.memSize) && decide (v ≠ Config.memReset) && Memory.wfFrom (k + 1) rest

/-- The canonical form: equal memories are equal lists. -/
def Memory.wf (m : Memory) : Bool := Memory.wfFrom 0 m

/-- MemRead(addr, 1) (R25): fails fast above 255, never wraps. -/
def memRead (s : State) (addr : Nat) : Except EngineError Byte :=
  if addr < Config.memSize then .ok (s.mem.read addr) else .error (.memoryRange s.pc addr)

/-- MemWrite(addr, 1, v) (R25). -/
def memWrite (s : State) (addr : Nat) (v : Byte) : Except EngineError State :=
  if addr < Config.memSize then .ok { s with mem := s.mem.write addr v }
  else .error (.memoryRange s.pc addr)

/-! ### Registers (spec/10_state.md R5, R6) -/

/-- `x[r]`. No register is hardwired. -/
def State.reg (s : State) (r : Reg) : Byte := s.regs[r]

/-- `x[r] <- v`. -/
def State.setReg (s : State) (r : Reg) (v : Byte) : State := { s with regs := s.regs.set r v }

/-- `SP = x[7]` (R6). -/
def State.sp (s : State) : Byte := s.reg Config.spIndex

/-! ### Program counter, status, output -/

/-- `pc <- zext_9(v)`, the transfer to an address held in a register (R80 to R85). -/
def State.jump (s : State) (v : Byte) : State := { s with pc := v.setWidth 9 }

/-- `pc <- pc + n`, not reduced modulo 256 (R8, R53). -/
def State.skip (s : State) (n : Nat) : State := { s with pc := s.pc + BitVec.ofNat 9 n }

/-- Output(v): append to the output stream (R15, R19). -/
def State.emit (s : State) (v : Byte) : State := { s with out := s.out ++ [v] }

/-- `status <- HALTED` (R55). -/
def State.halt (s : State) : State := { s with status := .halted }

/-- Error entry, shared by all four errors (spec/60_exceptions.md R93): every register, memory cell, `pc`,
`FL` and the output stream stay as when the step began, and `status <- FAULTED(e)`. There is no return from
an error: only reset leaves FAULTED (R94). -/
def State.raise (s : State) (e : EngineError) : State := { s with status := .faulted e }

/-! ### The end of a step (spec/40_engine_cycle.md R52 to R54) -/

/-- The advance phase (R53): an opcode with PCM = 0 adds NOPS + 1 to `pc`; one with PCM = 1 has set `pc`
itself. -/
def State.advance (s : State) (opcode : Byte) : State :=
  if pcMutating opcode then s else s.skip (nops opcode + 1)

/-- The rest of a step, once the handler of `opcode` has run from `s`: the advance of what it left, or error
entry from `s` with every effect of the step discarded (R54). -/
def conclude (s : State) (opcode : Byte) (handler : Except EngineError State) : Result :=
  match handler with
  | .ok s' => .next (s'.advance opcode)
  | .error e => .next (s.raise e)

end Sys2Proof.Machine
end

