-- ==== Sys2Proof/Machine/Operands.lean ====
section
/-! DEFINITION. Operand forms (spec/30_encoding.md R41). The engine has two: a register operand, the whole
operand byte as an index, checked before the handler has any effect (spec/40_engine_cycle.md R51); and LDI's
immediate, the byte as it stands, which needs no operation. -/

namespace Sys2Proof.Machine

/-- Validation of one register operand: continue with the index if the byte is 0..7, else
RegisterRangeError(pc, which, value). -/
def withReg (s : State) (which : OperandSlot) (value : Byte) (k : Reg → Except EngineError State) :
    Except EngineError State :=
  if h : value.toNat < Config.nreg then k ⟨value.toNat, h⟩ else .error (.registerRange s.pc which value)

/-- Validation of the two register operands of format F2R, `a` before `b` (R51). -/
def withRegs (s : State) (a b : Byte) (k : Reg → Reg → Except EngineError State) : Except EngineError State :=
  withReg s .a a fun ra => withReg s .b b fun rb => k ra rb

end Sys2Proof.Machine
end

