-- ==== Sys2Proof/Machine/Alu.lean ====
section
/-! DEFINITION. The ALU block (spec/42_alu.md R59 to R69): nine operations over two registers. The dispatch
table selects ADD and MUL only (R72); the other seven, and the block's two errors, are the block's own. -/

namespace Sys2Proof.Machine

/-- The nine operations (R59). -/
inductive AluOp where
  | add
  | mul
  | and
  | or
  | xor
  | not
  | shl
  | shr
  | mod
  deriving DecidableEq, Repr

/-- What an operation selector can hold: one of the nine names, or anything else (R69). -/
inductive AluSelector where
  | named (op : AluOp)
  | unsupported
  deriving DecidableEq, Repr

/-- `f_op(x[a], x[b])`, reduced to 8 bits (R60 to R68). NOT ignores the second value (R65); a shift count is
the whole second value, so 8 or more gives 0, and SHR is logical (R66, R67, D15); MOD is unsigned and fails on
a zero divisor (R68). -/
def aluCompute (op : AluOp) (va vb : Byte) : Except AluCause Byte :=
  match op with
  | .add => .ok (va + vb)
  | .mul => .ok (va * vb)
  | .and => .ok (va &&& vb)
  | .or => .ok (va ||| vb)
  | .xor => .ok (va ^^^ vb)
  | .not => .ok (~~~va)
  | .shl => .ok (va <<< vb.toNat)
  | .shr => .ok (va >>> vb.toNat)
  | .mod => if vb = 0 then .error .divideByZero else .ok (BitVec.ofNat 8 (va.toNat % vb.toNat))

/-- ALU(op, a, b) (R59): writes `x[a]` and nothing else, or raises ALUError with `x[a]` unchanged. -/
def alu (op : AluOp) (a b : Reg) (s : State) : Except EngineError State :=
  match aluCompute op (s.reg a) (s.reg b) with
  | .ok r => .ok (s.setReg a r)
  | .error cause => .error (.aluError s.pc cause)

/-- The block used on its own, given a selector and two operand bytes: an unsupported selector raises
ALUError(UnsupportedOperation) (R69); NOT's second byte is neither read nor range-checked (R65, D4). R59 takes
indices 0..7: the answers to bytes above 7 are the model's choice (DESIGN CHOICE, safe, log 9). -/
def aluBlock (sel : AluSelector) (a b : Byte) (s : State) : Except EngineError State :=
  match sel with
  | .unsupported => .error (.aluError s.pc .unsupportedOperation)
  | .named .not => withReg s .a a fun ra => alu .not ra ra s
  | .named op => withRegs s a b fun ra rb => alu op ra rb s

end Sys2Proof.Machine
end

