-- ==== Sys2Proof/Machine/Arith.lean ====
section
/-! DEFINITION. MUL and ADD, the two instructions the dispatch table routes through the ALU
(spec/42_alu.md R70, R71). -/

namespace Sys2Proof.Machine

/-- MUL: `ALU(MUL, a, b)` (R71). -/
def execMul (a b : Byte) (s : State) : Result :=
  conclude s opMul (withRegs s a b fun ra rb => alu .mul ra rb s)

/-- ADD: `ALU(ADD, a, b)` (R70; conflict C11: ADD adds). -/
def execAdd (a b : Byte) (s : State) : Result :=
  conclude s opAdd (withRegs s a b fun ra rb => alu .add ra rb s)

end Sys2Proof.Machine
end

