-- ==== Sys2Proof/Machine/Flags.lean ====
section
/-! DEFINITION. The flags register `FL = 0b00000LGE` (spec/10_state.md R11; decisions D8 to D10) and the
one computation that writes it, CMP's (spec/44_compare_flags.md R79). -/

namespace Sys2Proof.Machine

/-- FL.E, equal, bit 0. -/
def flagE (fl : Byte) : Bool := fl.getLsbD 0

/-- FL.G, greater-than, bit 1. -/
def flagG (fl : Byte) : Bool := fl.getLsbD 1

/-- FL.L, less-than, bit 2. -/
def flagL (fl : Byte) : Bool := fl.getLsbD 2

/-- The whole byte CMP writes: exactly one of E, G, L, by the unsigned comparison of `x` with `y` (R79). -/
def compareFlags (x y : Byte) : Byte :=
  if x.toNat = y.toNat then 0b00000001 else if y.toNat < x.toNat then 0b00000010 else 0b00000100

/-- `FL <- v`. -/
def State.setFlags (s : State) (v : Byte) : State := { s with fl := v }

end Sys2Proof.Machine
end

