-- ==== Sys2Proof/Machine/Compare.lean ====
section
/-! DEFINITION. CMP (spec/44_compare_flags.md R79). -/

namespace Sys2Proof.Machine

/-- CMP: record the unsigned comparison of `x[a]` with `x[b]` in `FL` (R79). -/
def execCmp (a b : Byte) (s : State) : Result :=
  conclude s opCmp (withRegs s a b fun ra rb => .ok (s.setFlags (compareFlags (s.reg ra) (s.reg rb))))

end Sys2Proof.Machine
end

