-- ==== Sys2Proof/Machine/Stack.lean ====
section
/-! DEFINITION. The stack primitives and PUSH and POP (spec/43_stack.md). No limit is kept: the pointer wraps
modulo 256 and no error is raised (R78, D7). -/

namespace Sys2Proof.Machine

/-- `x[7] <- (x[7] - 1) mod 256`. -/
def State.spDown (s : State) : State := s.setReg Config.spIndex (s.sp - 1)

/-- `x[7] <- (x[7] + 1) mod 256`. -/
def State.spUp (s : State) : State := s.setReg Config.spIndex (s.sp + 1)

/-- The Push primitive (R74): decrement, then write `v` of the decremented state at the new pointer. `v` is a
function of that state because PUSH reads its source register after the decrement (R76, D18). -/
def pushWith (v : State → Byte) (s : State) : Except EngineError State :=
  memWrite s.spDown s.spDown.sp.toNat (v s.spDown)

/-- Push(v) for a byte `v` that does not depend on the pointer (R74). -/
def push (v : Byte) (s : State) : Except EngineError State := pushWith (fun _ => v) s

/-- The Pop primitive into register `r` (R75): read at the pointer, write `x[r]`, then increment (D18). -/
def popInto (r : Reg) (s : State) : Except EngineError State :=
  match memRead s s.sp.toNat with
  | .ok v => .ok (s.setReg r v).spUp
  | .error e => .error e

/-- PUSH: push `x[a]`, read after the decrement (R76). -/
def execPush (a : Byte) (s : State) : Result :=
  conclude s opPush (withReg s .a a fun ra => pushWith (fun s' => s'.reg ra) s)

/-- POP: pop into `x[a]` (R77). -/
def execPop (a : Byte) (s : State) : Result :=
  conclude s opPop (withReg s .a a fun ra => popInto ra s)

end Sys2Proof.Machine
end

