-- ==== Sys2Proof/Machine/Control.lean ====
section
/-! DEFINITION. CALL, RET, JMP, JEQ and JNE (spec/45_control_flow.md). All five have PCM = 1: the advance
phase leaves the `pc` their handlers set. -/

namespace Sys2Proof.Machine

/-- The return address CALL pushes, `pc + 2`, one byte: it fits because a fetch succeeds only at
`pc <= 253` (R83). -/
def State.returnAddress (s : State) : Byte := (s.pc + 2).setWidth 8

/-- CALL: push the return address, then jump to `x[a]`, read after the push (R83, D18). -/
def execCall (a : Byte) (s : State) : Result :=
  conclude s opCall (withReg s .a a fun ra =>
    match push s.returnAddress s with
    | .ok s' => .ok (s'.jump (s'.reg ra))
    | .error e => .error e)

/-- RET: pop into `x[r]`, then jump to `x[r]`, with `r` the byte after the RET opcode (R84, conflict C4). -/
def execRet (r : Byte) (s : State) : Result :=
  conclude s opRet (withReg s .a r fun rr =>
    match popInto rr s with
    | .ok s' => .ok (s'.jump (s'.reg rr))
    | .error e => .error e)

/-- JMP: `pc <- x[a]` (R80). -/
def execJmp (a : Byte) (s : State) : Result :=
  conclude s opJmp (withReg s .a a fun ra => .ok (s.jump (s.reg ra)))

/-- A conditional branch to `x[r]`, or over its own two bytes (R81, R82). -/
def branchIf (taken : Bool) (r : Reg) (s : State) : State :=
  if taken then s.jump (s.reg r) else s.skip 2

/-- JEQ: jump if FL.E is set. The operand is checked whether or not the branch is taken (R81, D4). -/
def execJeq (a : Byte) (s : State) : Result :=
  conclude s opJeq (withReg s .a a fun ra => .ok (branchIf (flagE s.fl) ra s))

/-- JNE: jump if FL.E is clear (R82). -/
def execJne (a : Byte) (s : State) : Result :=
  conclude s opJne (withReg s .a a fun ra => .ok (branchIf (!flagE s.fl) ra s))

end Sys2Proof.Machine
end

