-- ==== Sys2Proof/Machine/Halt.lean ====
section
/-! DEFINITION. HLT (spec/40_engine_cycle.md R55). -/

namespace Sys2Proof.Machine

/-- HLT: `status <- HALTED`, and the generic advance makes it `pc + 1` (R55, conflict C2). -/
def execHlt (s : State) : Result := conclude s opHlt (.ok s.halt)

end Sys2Proof.Machine
end

