-- ==== Sys2Proof/Machine/LoadOutput.lean ====
section
/-! DEFINITION. LDI and PRN (spec/41_load_and_output.md). -/

namespace Sys2Proof.Machine

/-- LDI: `x[a] <- b` (R57). -/
def execLdi (a b : Byte) (s : State) : Result :=
  conclude s opLdi (withReg s .a a fun ra => .ok (s.setReg ra b))

/-- PRN: `Output(x[a])` (R58). -/
def execPrn (a : Byte) (s : State) : Result :=
  conclude s opPrn (withReg s .a a fun ra => .ok (s.emit (s.reg ra)))

end Sys2Proof.Machine
end

