-- ==== Sys2Proof/Machine/Fetch.lean ====
section
/-! DEFINITION. When a step is taken, and its fetch and decode phases (spec/40_engine_cycle.md R48 to R50). -/

namespace Sys2Proof.Machine

/-- The engine takes a step only when RUNNING (R48). -/
def State.takesStep (s : State) : Bool := decide (s.status = .running)

/-- The fetch (R49): `IR`, `operand_a` and `operand_b` from `pc`, `pc+1`, `pc+2`, in that order, always all
three, with natural-number addresses. The first address above 255 raises MemoryRangeError. -/
def fetch (s : State) : Except EngineError (Byte × Byte × Byte) :=
  match memRead s s.pc.toNat with
  | .error e => .error e
  | .ok ir =>
    match memRead s (s.pc.toNat + 1) with
    | .error e => .error e
    | .ok a =>
      match memRead s (s.pc.toNat + 2) with
      | .error e => .error e
      | .ok b => .ok (ir, a, b)

/-- The fetch, then the decode of what it latched: an unknown opcode raises DecodeError(pc, IR) (R50). -/
def fetchDecode (s : State) : Except EngineError Instr :=
  match fetch s with
  | .error e => .error e
  | .ok (ir, a, b) =>
    match decode ir a b with
    | .ok i => .ok i
    | .error _ => .error (.decodeError s.pc ir)

/-- The host lays bytes at consecutive addresses from `addr`, inside the address space (R22). -/
def Memory.place (m : Memory) (addr : Nat) : List Byte → Memory
  | [] => m
  | v :: rest => Memory.place (if addr < Config.memSize then m.write addr v else m) (addr + 1) rest

end Sys2Proof.Machine
end

