-- ==== Sys2Proof/Machine/Step.lean ====
section
/-! DEFINITION. The step (spec/40_engine_cycle.md R54). -/

namespace Sys2Proof.Machine

/-- One step: fetch, decode, then `exec`, which validates, executes and advances. An engine that is not
RUNNING takes no step: its state does not change (R48; D27 lets a model be the identity there). -/
def step (s : State) : Host.Outcome State Fault Refusal :=
  if s.takesStep then
    match fetchDecode s with
    | .ok i => exec i s
    | .error e => .next (s.raise e)
  else .next s

/-- `s` with the instruction of `nbits` bits `w`, and zeros above it, at the three addresses the next fetch
reads. Only memory changes. -/
def State.withFetchWord (s : State) (nbits w : Nat) : State :=
  { s with mem := s.mem.place s.pc.toNat (tableBytes nbits w) }

end Sys2Proof.Machine
end

