-- ==== Sys2Proof/Machine/Interfaces.lean ====
section
/-! DEFINITION. The interfaces of the block other than memory (spec/10_state.md section 11): status and its
codes, reset, the loader and the launch state, the rendering of an output value, the trace. No instruction
uses them. -/

namespace Sys2Proof.Machine

/-- The sub-cause numbers of ALUError (R86, D13). -/
def AluCause.code : AluCause → Nat
  | .unsupportedOperation => 1
  | .divideByZero => 2

/-- The error codes (R86, D13). -/
def EngineError.code : EngineError → Nat
  | .decodeError _ _ => 1
  | .aluError _ _ => 2
  | .memoryRange _ _ => 3
  | .registerRange _ _ _ => 4

/-- The `pc` an error records, in first place (R54). -/
def EngineError.pc : EngineError → Pc
  | .decodeError pc _ => pc
  | .aluError pc _ => pc
  | .memoryRange pc _ => pc
  | .registerRange pc _ _ => pc

/-- The code a stopped engine reports: 0 after HLT, the error's code after an error (R86, D13). A RUNNING engine
reports none: R86 gives it no code, and this is the model's choice (DESIGN CHOICE, unsafe, log 16). -/
def Status.code : Status → Option Nat
  | .running => none
  | .halted => some 0
  | .faulted e => some e.code

/-- The reset interface (R21, R103): whatever the state, everything takes its reset value. -/
def State.applyReset (_s : State) : State := State.reset

/-- The loader (R22): the image written contiguously from address 0; nothing but memory is touched. -/
def State.load (s : State) (image : List Byte) : State := { s with mem := s.mem.place 0 image }

/-- The launch state (R105): reset, then the loader. There is none for an image of more than 256 bytes, of
which the spec says nothing (D26). -/
def launch (image : List Byte) : Option State :=
  if image.length ≤ Config.memSize then some (State.reset.load image) else none

/-- One decimal digit. -/
def digit (n : Nat) : Char := Char.ofNat (48 + n % 10)

/-- What the host prints for an output value (R19): the unsigned decimal numeral with no leading zeros, and a
newline. -/
def render (v : Byte) : List Char :=
  let n := v.toNat
  if n < 10 then [digit n, '\n']
  else if n < 100 then [digit (n / 10), digit n, '\n']
  else [digit (n / 100), digit (n / 10), digit n, '\n']

/-- The debug dump (R23): `pc`, the next three memory bytes, the registers. -/
structure Trace where
  pc : Pc
  /-- `mem[pc]`, `mem[pc+1]`, `mem[pc+2]`; `none` for an address above 255, of which R23 shows no defined
  content -/
  bytes : List (Option Byte)
  regs : Vector Byte 8
  deriving DecidableEq, Repr

/-- A cell as the trace shows it: reading never raises an engine error here (R23, D25). -/
def State.traceByte (s : State) (addr : Nat) : Option Byte :=
  if addr < Config.memSize then some (s.mem.read addr) else none

/-- The trace port (R23, R100): a function of the state, which it does not change. -/
def State.trace (s : State) : Trace where
  pc := s.pc
  bytes := [s.traceByte s.pc.toNat, s.traceByte (s.pc.toNat + 1), s.traceByte (s.pc.toNat + 2)]
  regs := s.regs

end Sys2Proof.Machine
end

