-- ==== Sys2Proof/Safety.lean ====
section
/-! DEFINITION. The terms the claims are written in: what a fetch latches, which registers an instruction
names, what the engine's state always satisfies, and what a normal end is. -/

namespace Sys2Proof

/-- The 13 recognised opcode bytes, copied from the hexadecimal column of spec/30_encoding.md R42 (the
decoder is written from its binary column). -/
def recognisedOpcodes : List Byte :=
  [0x01, 0x82, 0x47, 0xA2, 0xA0, 0x45, 0x46, 0x50, 0x11, 0xA7, 0x54, 0x55, 0x56]

/-- The registers an instruction writes, as numbers (spec/10_state.md R7, third column). -/
def Instr.regsWritten : Instr → List Nat
  | .hlt => []
  | .ldi a _ => [a.toNat]
  | .prn _ => []
  | .mul a _ => [a.toNat]
  | .add a _ => [a.toNat]
  | .push _ => [7]
  | .pop a => [a.toNat, 7]
  | .call _ => [7]
  | .ret r => [r.toNat, 7]
  | .cmp _ _ => []
  | .jmp _ => []
  | .jeq _ => []
  | .jne _ => []

/-- The registers an instruction may read, as numbers (R7, second column; JEQ and JNE read theirs when
taken). -/
def Instr.regsRead : Instr → List Nat
  | .hlt => []
  | .ldi _ _ => []
  | .prn a => [a.toNat]
  | .mul a b => [a.toNat, b.toNat]
  | .add a b => [a.toNat, b.toNat]
  | .push a => [7, a.toNat]
  | .pop _ => [7]
  | .call a => [7, a.toNat]
  | .ret r => [7, r.toNat]
  | .cmp a b => [a.toNat, b.toNat]
  | .jmp a => [a.toNat]
  | .jeq a => [a.toNat]
  | .jne a => [a.toNat]

namespace Machine

/-- A step is taken from `s` and its fetch latches `ir`, `a` and `b` (spec/40_engine_cycle.md R48, R49: the
three reads are in range exactly when `pc <= 253`). -/
structure State.Latches (s : State) (ir a b : Byte) : Prop where
  running : s.status = .running
  inRange : s.pc.toNat ≤ 253
  opcode : s.mem.read s.pc.toNat = ir
  operandA : s.mem.read (s.pc.toNat + 1) = a
  operandB : s.mem.read (s.pc.toNat + 2) = b

/-- The recorded error is the one the instruction at `pc` causes (spec/60_exceptions.md R86 to R90, R93). No
state of a run records an ALUError (R72, R88). -/
def EngineError.JustifiedAt (s : State) : EngineError → Prop
  | .decodeError pc opcode =>
    pc = s.pc ∧ s.pc.toNat ≤ 253 ∧ s.mem.read s.pc.toNat = opcode ∧ opcode ∉ recognisedOpcodes
  | .aluError _ _ => False
  | .memoryRange pc addr => pc = s.pc ∧ 254 ≤ s.pc.toNat ∧ addr = 256
  | .registerRange pc .a value =>
    pc = s.pc ∧ s.pc.toNat ≤ 253 ∧ s.mem.read s.pc.toNat ∈ recognisedOpcodes ∧
      s.mem.read (s.pc.toNat + 1) = value ∧ 7 < value.toNat
  | .registerRange pc .b value =>
    pc = s.pc ∧ s.pc.toNat ≤ 253 ∧ s.mem.read s.pc.toNat ∈ [0xA2#8, 0xA0#8, 0xA7#8] ∧
      (s.mem.read (s.pc.toNat + 1)).toNat ≤ 7 ∧ s.mem.read (s.pc.toNat + 2) = value ∧ 7 < value.toNat

/-- What a status says about the rest of the state: HALTED stands one past a HLT (R55), FAULTED(e) at the
instruction that caused `e`. -/
def State.StatusJustified (s : State) : Prop :=
  match s.status with
  | .running => True
  | .halted => 1 ≤ s.pc.toNat ∧ s.pc.toNat ≤ 254 ∧ s.mem.read (s.pc.toNat - 1) = 0x01#8
  | .faulted e => e.JustifiedAt s

/-- The engine's invariant: memory canonical and inside the address space (R24), `pc` in 0..256 (R8), `FL` one
of its four values (R11), the status justified (R13). -/
structure State.Inv (s : State) : Prop where
  memWf : s.mem.wf = true
  pcRange : s.pc.toNat ≤ 256
  flLegal : s.fl ∈ [0x00#8, 0x01#8, 0x02#8, 0x04#8]
  status : s.StatusJustified

/-- The mark of normal termination (R94). -/
abbrev State.HaltedNormally (s : State) : Prop := s.status = .halted

/-- The decimal value of a numeral's digits, most significant first. -/
def numeralValue (digits : List Char) : Nat := digits.foldl (fun n c => 10 * n + (c.toNat - 48)) 0

end Machine

end Sys2Proof
end

