-- ==== Sys2Proof/Certificates/Slice0/Obligations.lean ====
section
/-! DEFINITION. The statements for the provers. Register operands: `a.toNat = r.val` says that the operand byte
`a` is the legal index `r` (spec/30_encoding.md R41). A result statement gives the whole next state, so it also
says that everything it does not name is unchanged. -/

open Sys2Proof Sys2Proof.Machine

/-! ### Encoding and decoding -/

/-- spec/30_encoding.md sections 1 to 3. Every instruction, at every value of its operand bytes, is what the
decoder reads from its own bytes (and RET's following byte), whatever bytes come after; whatever decodes is
the bytes of its instruction; and the bytes that do not decode are those with an opcode byte outside the 13. -/
def Obligations.DecodeAndEncodeAgree : Prop :=
  (∀ (i : Instr) (x y : Byte), decodeBytes (encode i ++ i.following ++ [x, y]) = .ok i) ∧
  (∀ (ir a b : Byte) (i : Instr), decode ir a b = .ok i → ∃ rest, [ir, a, b] = encode i ++ i.following ++ rest) ∧
  (∀ ir a b : Byte, decode ir a b = .error (.unknownOpcode ir) ↔ ir ∉ recognisedOpcodes)

/-- R42, row by row: the table's 13 opcode bytes and the operand bytes each uses, and no other byte; and the
table's NOPS and PCM columns. -/
def Obligations.DispatchTableIsTheThirteenRows : Prop :=
  (∀ ir a b : Byte, decode ir a b =
    if ir = 0x01 then .ok .hlt
    else if ir = 0x82 then .ok (.ldi a b)
    else if ir = 0x47 then .ok (.prn a)
    else if ir = 0xA2 then .ok (.mul a b)
    else if ir = 0xA0 then .ok (.add a b)
    else if ir = 0x45 then .ok (.push a)
    else if ir = 0x46 then .ok (.pop a)
    else if ir = 0x50 then .ok (.call a)
    else if ir = 0x11 then .ok (.ret a)
    else if ir = 0xA7 then .ok (.cmp a b)
    else if ir = 0x54 then .ok (.jmp a)
    else if ir = 0x55 then .ok (.jeq a)
    else if ir = 0x56 then .ok (.jne a)
    else .error (.unknownOpcode ir)) ∧
  recognisedOpcodes.map nops = [0, 2, 1, 2, 2, 1, 1, 1, 0, 2, 1, 1, 1] ∧
  recognisedOpcodes.map pcMutating =
    [false, false, false, false, false, false, false, true, true, false, true, true, true]

/-- One word of each row, written from the table's encoding with the first byte in bits 7..0. RET is one byte;
the zero byte after it selects register 0. -/
def Obligations.WordsDecodeAsTheTableSays : Prop :=
  decodeTableWord 8 0x01 = some .hlt ∧ decodeTableWord 24 0xC80382 = some (.ldi 3 200) ∧
  decodeTableWord 16 0x0747 = some (.prn 7) ∧ decodeTableWord 24 0x0100A2 = some (.mul 0 1) ∧
  decodeTableWord 24 0x0302A0 = some (.add 2 3) ∧ decodeTableWord 16 0x0645 = some (.push 6) ∧
  decodeTableWord 16 0x0146 = some (.pop 1) ∧ decodeTableWord 16 0x0150 = some (.call 1) ∧
  decodeTableWord 8 0x11 = some (.ret 0) ∧ decodeTableWord 24 0x0200A7 = some (.cmp 0 2) ∧
  decodeTableWord 16 0x0354 = some (.jmp 3) ∧ decodeTableWord 16 0x0355 = some (.jeq 3) ∧
  decodeTableWord 16 0x0356 = some (.jne 3) ∧ decodeTableWord 8 0x00 = none ∧ decodeTableWord 8 0xA8 = none

/-! ### The step -/

/-- R49, R50, R52: where the three latched bytes decode to `i`, the step is `exec i` and nothing more; `exec`
holds the validation, the handler and the advance. -/
def Obligations.StepRunsTheDecodedInstruction : Prop :=
  ∀ (s : State) (ir a b : Byte) (i : Instr), s.Latches ir a b → decode ir a b = .ok i → step s = exec i s

/-- R27, R38, R49: where the bytes of `i` (and RET's following byte) stand from `pc` on, the step runs `i`. -/
def Obligations.StepRunsTheEncodedInstruction : Prop :=
  ∀ (s : State) (i : Instr), s.status = .running → s.pc.toNat ≤ 253 →
    (∀ (k : Nat) (v : Byte), (encode i ++ i.following)[k]? = some v → s.mem.read (s.pc.toNat + k) = v) →
    step s = exec i s

/-- R48 with the spec's decision D27: no step is taken outside RUNNING, and a model's step may be undefined there or
the identity. That this model's step is the identity is its choice (DESIGN CHOICE, log entry 1). -/
def Obligations.StoppedEngineTakesNoStep : Prop :=
  ∀ s : State, s.status ≠ .running → step s = .next s

/-- R48, R94: however often a HALTED or FAULTED engine is stepped, its state does not change. R48 (D27) allows the
identity there; that this model's step is the identity is its choice (DESIGN CHOICE, log entry 1). -/
def Obligations.StoppedEngineNeverLeaves : Prop :=
  ∀ (k : Nat) (s : State), s.status ≠ .running → core.run k s = .next s

/-- R49, R86, R89 with the spec's decisions D2 and D24: at `pc` 254, 255 and 256 the fetch raises
MemoryRangeError with the address 256, whatever the opcode, and nothing else changes. `max s.pc.toNat 256` differs
from 256 only at `pc` 257..511. R8 excludes those states, and the spec (always 256) gives them no address. That the
model reports `pc` itself there is its own choice (DESIGN CHOICE, log entry 2). -/
def Obligations.FetchPastMemoryRaisesRangeError : Prop :=
  ∀ s : State, s.status = .running → 254 ≤ s.pc.toNat →
    step s = .next { s with status := .faulted (.memoryRange s.pc (max s.pc.toNat 256)) }

/-- R87: an unknown opcode byte raises DecodeError(pc, opcode), whatever the operand bytes, with no other
effect. -/
def Obligations.UnknownOpcodeRaisesDecodeError : Prop :=
  ∀ (s : State) (ir a b : Byte), s.Latches ir a b → ir ∉ recognisedOpcodes →
    step s = .next { s with status := .faulted (.decodeError s.pc ir) }

/-- R51 with the spec's decisions D3, D4, D5, D29: an operand byte above 7 that the instruction uses as a
register index raises RegisterRangeError, `a` before `b`, branches not taken and RET's following byte included,
and nothing else changes. -/
def Obligations.RegisterOperandAboveSevenRaises : Prop :=
  (∀ (s : State) (a b : Byte), 7 < a.toNat →
    let t : Result := .next { s with status := .faulted (.registerRange s.pc .a a) }
    exec (.ldi a b) s = t ∧ exec (.prn a) s = t ∧ exec (.mul a b) s = t ∧ exec (.add a b) s = t ∧
    exec (.push a) s = t ∧ exec (.pop a) s = t ∧ exec (.call a) s = t ∧ exec (.ret a) s = t ∧
    exec (.cmp a b) s = t ∧ exec (.jmp a) s = t ∧ exec (.jeq a) s = t ∧ exec (.jne a) s = t) ∧
  (∀ (s : State) (a b : Byte), a.toNat ≤ 7 → 7 < b.toNat →
    let t : Result := .next { s with status := .faulted (.registerRange s.pc .b b) }
    exec (.mul a b) s = t ∧ exec (.add a b) s = t ∧ exec (.cmp a b) s = t)

/-- R93 with the spec's decision D5: whatever error a step raises, it is recorded with the `pc` of the step and
every other item of the state is as when the step began. -/
def Obligations.ErrorsArePrecise : Prop :=
  ∀ (s t : State) (e : EngineError), s.status = .running → step s = .next t → t.status = .faulted e →
    t = { s with status := .faulted e } ∧ e.pc = s.pc

/-- R13, R55: a step reaches HALTED exactly when it fetches the HLT opcode. -/
def Obligations.OnlyHltReachesHalted : Prop :=
  ∀ s t : State, s.status = .running → step s = .next t →
    (t.status = .halted ↔ s.pc.toNat ≤ 253 ∧ s.mem.read s.pc.toNat = 0x01#8)

/-- R53: after an instruction whose register operands are legal, `pc` has moved by NOPS + 1 where opcode bit 4
is 0, with no wrap (at most 256); where bit 4 is 1 the advance phase leaves what the handler set; and a
conditional branch that is not taken has moved `pc` by 2. -/
def Obligations.AdvanceFollowsTheOpcodeBits : Prop :=
  ∀ (s t : State) (ir a b : Byte) (i : Instr), s.Latches ir a b → decode ir a b = .ok i →
    i.wellFormed = true → step s = .next t →
    (ir.getLsbD 4 = false → t.pc.toNat = s.pc.toNat + (ir.toNat / 64) + 1 ∧ t.pc.toNat ≤ 256) ∧
    (ir.getLsbD 4 = true → ∀ u : State, u.advance ir = u) ∧
    (ir = 0x55 → flagE s.fl = false → t.pc.toNat = s.pc.toNat + 2) ∧
    (ir = 0x56 → flagE s.fl = true → t.pc.toNat = s.pc.toNat + 2)

/-- The model's own totality, its choice (DESIGN CHOICE, log entry 1), not a rule of the spec: each of the four
errors is a next state with status FAULTED(e), and a stopped engine also answers a next state, itself. R54 gives the
step for status RUNNING alone. R48 with the decision D27 leaves a model's step elsewhere undefined or the identity. -/
def Obligations.StepAlwaysAnswersANextState : Prop := ∀ s : State, ∃ t, step s = .next t

/-! ### The instructions, on legal operands -/

/-- R55: HLT sets the status, leaves `pc` one past its opcode, and changes nothing else. -/
def Obligations.HltHaltsOnePastItself : Prop :=
  ∀ s : State, exec .hlt s = .next { s with status := .halted, pc := s.pc + 1 }

/-- R57. -/
def Obligations.LdiWritesTheImmediate : Prop :=
  ∀ (s : State) (r : Reg) (a b : Byte), a.toNat = r.val →
    exec (.ldi a b) s = .next { s with regs := s.regs.set r b, pc := s.pc + 3 }

/-- R58. -/
def Obligations.PrnAppendsTheRegister : Prop :=
  ∀ (s : State) (r : Reg) (a : Byte), a.toNat = r.val →
    exec (.prn a) s = .next { s with out := s.out ++ [s.reg r], pc := s.pc + 2 }

/-- R71: the value written is the product modulo 256. -/
def Obligations.MulWritesTheProductModulo256 : Prop :=
  ∀ (s : State) (ra rb : Reg) (a b : Byte), a.toNat = ra.val → b.toNat = rb.val →
    exec (.mul a b) s =
      .next { s with regs := s.regs.set ra (BitVec.ofNat 8 ((s.reg ra).toNat * (s.reg rb).toNat)), pc := s.pc + 3 }

/-- R70: the value written is the sum modulo 256. -/
def Obligations.AddWritesTheSumModulo256 : Prop :=
  ∀ (s : State) (ra rb : Reg) (a b : Byte), a.toNat = ra.val → b.toNat = rb.val →
    exec (.add a b) s =
      .next { s with regs := s.regs.set ra (BitVec.ofNat 8 ((s.reg ra).toNat + (s.reg rb).toNat)), pc := s.pc + 3 }

/-- R76, for every source register. The decrement and the order (the source register is read after it, so
PUSH R7 stores the decremented pointer) are the rule's own words; where the source of the spec is silent on them
they are its decisions D7 and D18. -/
def Obligations.PushStoresTheRegister : Prop :=
  ∀ (s : State) (r : Reg) (a : Byte), s.mem.wf = true → a.toNat = r.val →
    ∃ t, exec (.push a) s = .next t ∧ t.sp = s.sp - 1 ∧ (∀ q : Reg, q ≠ 7 → t.reg q = s.reg q) ∧
      (∀ x, t.mem.read x =
        if x = (s.sp - 1).toNat then (if r = 7 then s.sp - 1 else s.reg r) else s.mem.read x) ∧
      t.pc = s.pc + 2 ∧ t.fl = s.fl ∧ t.status = s.status ∧ t.out = s.out

/-- R77, for every destination register: `x[a]` is written before the pointer is incremented, so POP R7 ends one
above the popped value (the order of decision D18). -/
def Obligations.PopLoadsTheRegister : Prop :=
  ∀ (s : State) (r : Reg) (a : Byte), a.toNat = r.val →
    ∃ t, exec (.pop a) s = .next t ∧ (r ≠ 7 → t.reg r = s.mem.read s.sp.toNat) ∧
      t.sp = (if r = 7 then s.mem.read s.sp.toNat else s.sp) + 1 ∧
      (∀ q : Reg, q ≠ r → q ≠ 7 → t.reg q = s.reg q) ∧
      t.mem = s.mem ∧ t.pc = s.pc + 2 ∧ t.fl = s.fl ∧ t.status = s.status ∧ t.out = s.out

/-- R83, for every target register, wherever a CALL can execute: the byte pushed is `pc + 2`, which fits, and
`x[a]` is read after the push, so CALL R7 jumps to the decremented pointer (the order of decision D18). -/
def Obligations.CallPushesTheReturnAddress : Prop :=
  ∀ (s : State) (r : Reg) (a : Byte), s.mem.wf = true → s.pc.toNat ≤ 253 → a.toNat = r.val →
    ∃ t, exec (.call a) s = .next t ∧ t.pc = (if r = 7 then s.sp - 1 else s.reg r).setWidth 9 ∧
      t.sp = s.sp - 1 ∧ (∀ q : Reg, q ≠ 7 → t.reg q = s.reg q) ∧
      (t.mem.read (s.sp - 1).toNat).toNat = s.pc.toNat + 2 ∧
      (∀ x, x ≠ (s.sp - 1).toNat → t.mem.read x = s.mem.read x) ∧
      t.fl = s.fl ∧ t.status = s.status ∧ t.out = s.out

/-- R84, for every following byte 0..7: the popped byte goes through `x[r]` into `pc`, after the pointer's
increment, so that with `r = 7` both end one above the popped value (the order of decision D18). -/
def Obligations.RetPopsThroughTheRegister : Prop :=
  ∀ (s : State) (rr : Reg) (r : Byte), r.toNat = rr.val →
    ∃ t, exec (.ret r) s = .next t ∧ (rr ≠ 7 → t.reg rr = s.mem.read s.sp.toNat) ∧
      t.sp = (if rr = 7 then s.mem.read s.sp.toNat else s.sp) + 1 ∧
      t.pc = (if rr = 7 then s.mem.read s.sp.toNat + 1 else s.mem.read s.sp.toNat).setWidth 9 ∧
      (∀ q : Reg, q ≠ rr → q ≠ 7 → t.reg q = s.reg q) ∧
      t.mem = s.mem ∧ t.fl = s.fl ∧ t.status = s.status ∧ t.out = s.out

/-- R79 with the spec's decisions D8, D9 and D10 (bit positions, whole byte, direction and signedness): the
byte CMP writes, and that exactly one of E, G, L is set in it. -/
def Obligations.CmpRecordsTheUnsignedComparison : Prop :=
  ∀ (s : State) (ra rb : Reg) (a b : Byte), a.toNat = ra.val → b.toNat = rb.val →
    ∃ f : Byte, exec (.cmp a b) s = .next { s with fl := f, pc := s.pc + 3 } ∧
      (f = if s.reg ra = s.reg rb then 0x01 else if (s.reg rb).toNat < (s.reg ra).toNat then 0x02 else 0x04) ∧
      (flagE f = true ↔ s.reg ra = s.reg rb) ∧ (flagG f = true ↔ (s.reg rb).toNat < (s.reg ra).toNat) ∧
      (flagL f = true ↔ (s.reg ra).toNat < (s.reg rb).toNat)

/-- R80. -/
def Obligations.JmpGoesToTheRegister : Prop :=
  ∀ (s : State) (r : Reg) (a : Byte), a.toNat = r.val →
    exec (.jmp a) s = .next { s with pc := (s.reg r).setWidth 9 }

/-- R81: JEQ jumps when E is set, else it steps over its two bytes; only `pc` changes. -/
def Obligations.JeqJumpsWhenEqual : Prop :=
  ∀ (s : State) (r : Reg) (a : Byte), a.toNat = r.val →
    exec (.jeq a) s = .next { s with pc := if flagE s.fl = true then (s.reg r).setWidth 9 else s.pc + 2 }

/-- R82: JNE jumps when E is clear, else it steps over its two bytes; only `pc` changes. It is JEQ's complement:
in every state one of the two goes to the register's value and the other to `pc + 2`. -/
def Obligations.JneJumpsWhenNotEqual : Prop :=
  ∀ (s : State) (r : Reg) (a : Byte), a.toNat = r.val →
    exec (.jne a) s = .next { s with pc := if flagE s.fl = false then (s.reg r).setWidth 9 else s.pc + 2 } ∧
    ((exec (.jeq a) s = .next (s.jump (s.reg r)) ∧ exec (.jne a) s = .next (s.skip 2)) ∨
      (exec (.jeq a) s = .next (s.skip 2) ∧ exec (.jne a) s = .next (s.jump (s.reg r))))

/-! ### What instructions leave alone, over all instructions -/

/-- R7, "Registers written": whatever `exec` answers, a register the table does not list is unchanged. -/
def Obligations.OnlyListedRegistersChange : Prop :=
  ∀ (i : Instr) (s t : State) (q : Reg), exec i s = .next t → q.val ∉ i.regsWritten → t.reg q = s.reg q

/-- R7, "Registers read": the value of a register the table lists in neither column makes no difference to
what an instruction does to the rest of the state. -/
def Obligations.UnlistedRegistersAreNeverRead : Prop :=
  ∀ (i : Instr) (s t : State) (q : Reg) (v : Byte), q.val ∉ i.regsRead → q.val ∉ i.regsWritten →
    exec i s = .next t → exec i (s.setReg q v) = .next (t.setReg q v)

/-- R12: a step that changes `FL` executes CMP. -/
def Obligations.OnlyCmpChangesTheFlags : Prop :=
  ∀ s t : State, step s = .next t → t.fl ≠ s.fl → ∃ a b, fetchDecode s = .ok (.cmp a b)

/-- R12: of `FL` a step reads the E bit alone. Two states that differ in `FL` but not in E step to states that
differ in `FL` at most, and only CMP makes those equal. -/
def Obligations.OnlyTheEqualFlagIsRead : Prop :=
  ∀ (s t : State) (f : Byte), flagE f = flagE s.fl → step s = .next t →
    ∃ g, step { s with fl := f } = .next { t with fl := g } ∧
      (g = f ∨ (g = t.fl ∧ ∃ a b, fetchDecode s = .ok (.cmp a b)))

/-- R26: a step that changes what a memory cell reads as executes PUSH or CALL, and the cell is the one below
the stack pointer. -/
def Obligations.OnlyPushAndCallChangeMemory : Prop :=
  ∀ (s t : State) (x : Nat), s.mem.wf = true → step s = .next t → t.mem.read x ≠ s.mem.read x →
    (∃ a, fetchDecode s = .ok (.push a) ∨ fetchDecode s = .ok (.call a)) ∧ x = (s.sp - 1).toNat

/-- Part of R15, with the reset value of R16: the output is empty at reset, and a step leaves it as it is or executes
PRN and appends that register's value, so no step removes a value. That a legal PRN does append is
`PrnAppendsTheRegister`, and that nothing reads the output is `OutputIsNeverRead`. -/
def Obligations.OutputGrowsOnlyByPrn : Prop :=
  State.reset.out = [] ∧
  ∀ s t : State, step s = .next t → t.out = s.out ∨
    ∃ (a : Byte) (r : Reg), fetchDecode s = .ok (.prn a) ∧ a.toNat = r.val ∧ t.out = s.out ++ [s.reg r]

/-- R15: nothing inside the engine reads the output stream: values emitted earlier make no difference. -/
def Obligations.OutputIsNeverRead : Prop :=
  ∀ (s t : State) (o : List Byte), step s = .next t →
    step { s with out := o ++ s.out } = .next { t with out := o ++ t.out }

/-! ### Reset, launch and the invariant -/

/-- The table of spec/10_state.md R16. Memory, x[7], `pc` and the status are the source's values; x[0..6] = 0 and
FL = 0 are the spec's decisions D11 and D9, and that reset also zeroes memory from any state is its D21. -/
def Obligations.ResetGivesTheTableOfValues : Prop :=
  (∀ x, State.reset.mem.read x = 0) ∧ State.reset.reg 7 = 0xF4 ∧ State.reset.pc = 0 ∧
  State.reset.status = .running ∧ State.reset.out = [] ∧ (∀ q : Reg, q ≠ 7 → State.reset.reg q = 0) ∧
  State.reset.fl = 0 ∧ (∀ s : State, s.applyReset = State.reset)

/-- R105: the state at the first step. The empty image is legal and its first step raises
DecodeError(0, 0x00). -/
def Obligations.LaunchStateHoldsTheImage : Prop :=
  (∀ image : List Byte, image.length ≤ 256 → ∃ s, launch image = some s ∧
    (∀ x, s.mem.read x = image.getD x 0) ∧ s.regs = State.reset.regs ∧ s.pc = 0 ∧ s.fl = State.reset.fl ∧
    s.status = .running ∧ s.out = []) ∧
  ∃ s, launch [] = some s ∧ step s = .next { s with status := .faulted (.decodeError 0 0x00) }

/-- The invariant holds right after reset. Its clause on canonical memory is about the model's own representation
(log entry 12). -/
def Obligations.InvariantHoldsAtReset : Prop := State.reset.Inv

/-- The invariant holds in every launch state. Its clause on canonical memory is about the model's own
representation (log entry 12). -/
def Obligations.InvariantHoldsAtLaunch : Prop :=
  ∀ (image : List Byte) (s : State), launch image = some s → s.Inv

/-- Every step, from every state that meets it, keeps the invariant: memory canonical and inside the address
space, `pc` in 0..256, `FL` one of its four values, HALTED only one past a HLT opcode, FAULTED(e) only with the
error that the bytes at `pc` cause, and never an ALUError. It rests on the spec's decisions D2 to D6, D8, D9 and
D13; the canonical form of memory is the model's own (log entry 12). -/
def Obligations.EveryStepKeepsTheInvariant : Prop :=
  ∀ s t : State, s.Inv → step s = .next t → t.Inv

/-- R72, R88: from a launch state, after any number of steps, no ALUError is recorded. -/
def Obligations.NoRunRaisesAluError : Prop :=
  ∀ (image : List Byte) (s t : State) (k : Nat) (pc : Pc) (c : AluCause), launch image = some s →
    core.run k s = .next t → t.status ≠ .faulted (.aluError pc c)

/-! ### Sequences of instructions -/

/-- The source's property P-b (spec/95_test_vectors.md 1.3): PUSH then POP into a different register round-trips
the value and the stack pointer, whatever the pointer (the wrap is decision D7). -/
def Obligations.PushThenPopRoundTrips : Prop :=
  ∀ (s : State) (ra rb : Reg) (a b : Byte), s.mem.wf = true → a.toNat = ra.val → b.toNat = rb.val → ra ≠ 7 →
    rb ≠ 7 → ∃ t u, exec (.push a) s = .next t ∧ exec (.pop b) t = .next u ∧ u.reg rb = s.reg ra ∧ u.sp = s.sp

/-- The source's property P-c: a RET that finds the stack as the CALL left it resumes at `pc + 2` of the CALL and
restores the stack pointer. -/
def Obligations.RetResumesAfterTheCall : Prop :=
  ∀ (s : State) (ra : Reg) (a : Byte), s.mem.wf = true → s.pc.toNat ≤ 253 → a.toNat = ra.val →
    ∃ t, exec (.call a) s = .next t ∧
      ∀ (u : State) (rr : Reg) (r : Byte), u.sp = t.sp → u.mem.read u.sp.toNat = t.mem.read t.sp.toNat →
        r.toNat = rr.val → rr ≠ 7 →
        ∃ w, exec (.ret r) u = .next w ∧ w.pc.toNat = s.pc.toNat + 2 ∧ w.sp = s.sp

/-- The source's property P-a: LDI r, v then PRN r outputs exactly v, for every register. -/
def Obligations.LdiThenPrnOutputsTheImmediate : Prop :=
  ∀ (s : State) (r : Reg) (a v : Byte), a.toNat = r.val →
    ∃ t u, exec (.ldi a v) s = .next t ∧ exec (.prn a) t = .next u ∧ u.out = s.out ++ [v]

/-- R35: a byte PUSH writes is what the very next fetch latches from that cell, at each of its three places. -/
def Obligations.NextFetchSeesThePushedByte : Prop :=
  ∀ (s t : State) (r : Reg) (a ir x y : Byte), s.mem.wf = true → a.toNat = r.val →
    exec (.push a) s = .next t → fetch t = .ok (ir, x, y) →
    (t.pc.toNat = t.sp.toNat → ir = t.reg r) ∧ (t.pc.toNat + 1 = t.sp.toNat → x = t.reg r) ∧
    (t.pc.toNat + 2 = t.sp.toNat → y = t.reg r)

/-- R56, R80: a JMP to its own address is a run that never ends. -/
def Obligations.JumpToSelfNeverEnds : Prop :=
  ∀ (s : State) (r : Reg) (a b : Byte) (k : Nat), s.Latches 0x54 a b → a.toNat = r.val →
    (s.reg r).toNat = s.pc.toNat → core.run k s = .next s

/-! ### Memory, the ALU block and the interfaces -/

/-- A law of the model's own memory representation (log entry 12), not of the spec: 20_memory.md gives 256 cells and
no form for holding them, and the canonical list is the model's choice. Two canonical memories that read alike in
the address space are the same data. -/
def Obligations.EqualMemoriesAreEqualLists : Prop :=
  ∀ m m' : Memory, m.wf = true → m'.wf = true → (∀ x, x < 256 → m.read x = m'.read x) → m = m'

/-- R25 with the spec's decision D2: an access at an address above 255 raises MemoryRangeError; one inside the
address space reads the cell, or writes that cell and no other, and keeps the memory canonical (the model's own
form, log entry 12). -/
def Obligations.MemoryAccessesFailFast : Prop :=
  (∀ (s : State) (x : Nat) (v : Byte), 256 ≤ x →
    memRead s x = .error (.memoryRange s.pc x) ∧ memWrite s x v = .error (.memoryRange s.pc x)) ∧
  (∀ (s : State) (x : Nat) (v : Byte), s.mem.wf = true → x < 256 →
    memRead s x = .ok (s.mem.read x) ∧
    ∃ t, memWrite s x v = .ok t ∧ t = { s with mem := t.mem } ∧ t.mem.wf = true ∧
      ∀ y, t.mem.read y = if y = x then v else s.mem.read y)

/-- R60 to R64: the five unmarked operations of the ALU block, the bitwise ones bit by bit, each writing `x[a]`
and nothing else. -/
def Obligations.AluArithmeticAndLogic : Prop :=
  ∀ (s : State) (a b : Reg),
    (∃ v, alu .add a b s = .ok { s with regs := s.regs.set a v } ∧
      v.toNat = ((s.reg a).toNat + (s.reg b).toNat) % 256) ∧
    (∃ v, alu .mul a b s = .ok { s with regs := s.regs.set a v } ∧
      v.toNat = ((s.reg a).toNat * (s.reg b).toNat) % 256) ∧
    (∃ v, alu .and a b s = .ok { s with regs := s.regs.set a v } ∧
      ∀ k, v.getLsbD k = ((s.reg a).getLsbD k && (s.reg b).getLsbD k)) ∧
    (∃ v, alu .or a b s = .ok { s with regs := s.regs.set a v } ∧
      ∀ k, v.getLsbD k = ((s.reg a).getLsbD k || (s.reg b).getLsbD k)) ∧
    (∃ v, alu .xor a b s = .ok { s with regs := s.regs.set a v } ∧
      ∀ k, v.getLsbD k = ((s.reg a).getLsbD k ^^ (s.reg b).getLsbD k))

/-- R65 to R68 with the spec's decisions D15 to D17: NOT, the shifts by the whole second value, and MOD with its
error on a zero divisor. -/
def Obligations.AluComplementShiftsAndModulo : Prop :=
  ∀ (s : State) (a b : Reg),
    (∃ v, alu .not a b s = .ok { s with regs := s.regs.set a v } ∧ v.toNat = 255 - (s.reg a).toNat) ∧
    (∃ v, alu .shl a b s = .ok { s with regs := s.regs.set a v } ∧
      v.toNat = ((s.reg a).toNat * 2 ^ (s.reg b).toNat) % 256) ∧
    (∃ v, alu .shr a b s = .ok { s with regs := s.regs.set a v } ∧
      v.toNat = (s.reg a).toNat / 2 ^ (s.reg b).toNat) ∧
    ((s.reg b).toNat = 0 → alu .mod a b s = .error (.aluError s.pc .divideByZero)) ∧
    ((s.reg b).toNat ≠ 0 → ∃ v, alu .mod a b s = .ok { s with regs := s.regs.set a v } ∧
      v.toNat = (s.reg a).toNat % (s.reg b).toNat)

/-- R59, R65, R69 with the spec's decisions D4 and D22: the block on its own. An unsupported selector raises
ALUError; NOT ignores its second operand byte; a named operation on legal bytes is the operation on those registers.
That an unsupported selector raises ALUError on operand bytes above 7 too is the model's choice (DESIGN CHOICE, log
entry 9): R59 takes indices 0..7 and R69 gives no such order. Named operations on bytes above 7 are in
`AluBlockRefusesBytesAboveSeven`. -/
def Obligations.AluBlockSelection : Prop :=
  (∀ (s : State) (a b : Byte), aluBlock .unsupported a b s = .error (.aluError s.pc .unsupportedOperation)) ∧
  (∀ (s : State) (a b : Byte) (ra : Reg), a.toNat = ra.val →
    aluBlock (.named .not) a b s = .ok (s.setReg ra (~~~(s.reg ra)))) ∧
  (∀ (op : AluOp) (s : State) (a b : Byte) (ra rb : Reg), a.toNat = ra.val → b.toNat = rb.val →
    aluBlock (.named op) a b s = alu op ra rb s)

/-- The model's choice (DESIGN CHOICE, log entry 9), since R59 takes register indices 0..7 and gives the block no
answer to other bytes: on its own, the block given a named operation refuses a byte above 7 as R51 does for an
instruction, `a` before `b`. NOT checks `a` alone, because R65 and D4 leave its `b` unchecked. -/
def Obligations.AluBlockRefusesBytesAboveSeven : Prop :=
  (∀ (op : AluOp) (s : State) (a b : Byte), 7 < a.toNat →
    aluBlock (.named op) a b s = .error (.registerRange s.pc .a a)) ∧
  (∀ (op : AluOp) (s : State) (a b : Byte), op ≠ .not → a.toNat ≤ 7 → 7 < b.toNat →
    aluBlock (.named op) a b s = .error (.registerRange s.pc .b b))

/-- R86 with the spec's decision D13: the codes of HALTED (0) and of the four errors and ALUError's sub-causes. The
first clause, that RUNNING reports no code, is the model's choice (DESIGN CHOICE, log entry 16): R86 says that code
0 means no error and is what a HALTED engine reports, and gives no code for RUNNING. -/
def Obligations.StatusCodes : Prop :=
  Status.running.code = none ∧ Status.halted.code = some 0 ∧
  ∀ (pc : Pc) (op : Byte) (c : AluCause) (x : Nat) (w : OperandSlot) (v : Byte),
    (Status.faulted (.decodeError pc op)).code = some 1 ∧ (Status.faulted (.aluError pc c)).code = some 2 ∧
    (Status.faulted (.memoryRange pc x)).code = some 3 ∧ (Status.faulted (.registerRange pc w v)).code = some 4 ∧
    AluCause.unsupportedOperation.code = 1 ∧ AluCause.divideByZero.code = 2

/-- R19 with the spec's decision D14: what the host prints is digits that read as the unsigned value, with no
leading zero but in `0` itself, and one newline. -/
def Obligations.OutputRendersAsDecimal : Prop :=
  ∀ v : Byte, ∃ ds : List Char, render v = ds ++ ['\n'] ∧ numeralValue ds = v.toNat ∧
    (∀ c ∈ ds, '0' ≤ c ∧ c ≤ '9') ∧ ds ≠ [] ∧ (ds.head? = some '0' → ds = ['0'])

/-- R23: the trace shows `pc`, the registers, and the three bytes at `pc` where they exist; bytes above address
255 are shown as absent, the model's choice for content the spec leaves undefined (D25, log entry 10). -/
def Obligations.TraceShowsPcBytesAndRegisters : Prop :=
  ∀ s : State, s.trace.pc = s.pc ∧ s.trace.regs = s.regs ∧
    (s.pc.toNat ≤ 253 → s.trace.bytes = [some (s.mem.read s.pc.toNat), some (s.mem.read (s.pc.toNat + 1)),
      some (s.mem.read (s.pc.toNat + 2))]) ∧
    (s.pc.toNat = 254 → s.trace.bytes = [some (s.mem.read 254), some (s.mem.read 255), none]) ∧
    (s.pc.toNat = 255 → s.trace.bytes = [some (s.mem.read 255), none, none]) ∧
    (s.pc.toNat = 256 → s.trace.bytes = [none, none, none])
end

