-- ==== Sys2Proof/Laws/State.lean ====
section
/-! SUPPORT. One lemma per field per update of State, and the register file's read-after-write laws, so that no
later proof unfolds a record update. -/

namespace Sys2Proof.Machine

section Fields

variable (s : State) (r : Reg) (v : Byte) (n : Nat) (e : EngineError) (l : List Byte)

@[simp] theorem State.setReg_mem : (s.setReg r v).mem = s.mem := rfl
@[simp] theorem State.setReg_regs : (s.setReg r v).regs = s.regs.set r v := rfl
@[simp] theorem State.setReg_pc : (s.setReg r v).pc = s.pc := rfl
@[simp] theorem State.setReg_fl : (s.setReg r v).fl = s.fl := rfl
@[simp] theorem State.setReg_status : (s.setReg r v).status = s.status := rfl
@[simp] theorem State.setReg_out : (s.setReg r v).out = s.out := rfl

@[simp] theorem State.jump_mem : (s.jump v).mem = s.mem := rfl
@[simp] theorem State.jump_regs : (s.jump v).regs = s.regs := rfl
@[simp] theorem State.jump_pc : (s.jump v).pc = v.setWidth 9 := rfl
@[simp] theorem State.jump_fl : (s.jump v).fl = s.fl := rfl
@[simp] theorem State.jump_status : (s.jump v).status = s.status := rfl
@[simp] theorem State.jump_out : (s.jump v).out = s.out := rfl

@[simp] theorem State.skip_mem : (s.skip n).mem = s.mem := rfl
@[simp] theorem State.skip_regs : (s.skip n).regs = s.regs := rfl
@[simp] theorem State.skip_pc : (s.skip n).pc = s.pc + BitVec.ofNat 9 n := rfl
@[simp] theorem State.skip_fl : (s.skip n).fl = s.fl := rfl
@[simp] theorem State.skip_status : (s.skip n).status = s.status := rfl
@[simp] theorem State.skip_out : (s.skip n).out = s.out := rfl

@[simp] theorem State.emit_mem : (s.emit v).mem = s.mem := rfl
@[simp] theorem State.emit_regs : (s.emit v).regs = s.regs := rfl
@[simp] theorem State.emit_pc : (s.emit v).pc = s.pc := rfl
@[simp] theorem State.emit_fl : (s.emit v).fl = s.fl := rfl
@[simp] theorem State.emit_status : (s.emit v).status = s.status := rfl
@[simp] theorem State.emit_out : (s.emit v).out = s.out ++ [v] := rfl

@[simp] theorem State.halt_mem : (s.halt).mem = s.mem := rfl
@[simp] theorem State.halt_regs : (s.halt).regs = s.regs := rfl
@[simp] theorem State.halt_pc : (s.halt).pc = s.pc := rfl
@[simp] theorem State.halt_fl : (s.halt).fl = s.fl := rfl
@[simp] theorem State.halt_status : (s.halt).status = .halted := rfl
@[simp] theorem State.halt_out : (s.halt).out = s.out := rfl

@[simp] theorem State.raise_mem : (s.raise e).mem = s.mem := rfl
@[simp] theorem State.raise_regs : (s.raise e).regs = s.regs := rfl
@[simp] theorem State.raise_pc : (s.raise e).pc = s.pc := rfl
@[simp] theorem State.raise_fl : (s.raise e).fl = s.fl := rfl
@[simp] theorem State.raise_status : (s.raise e).status = .faulted e := rfl
@[simp] theorem State.raise_out : (s.raise e).out = s.out := rfl

@[simp] theorem State.setFlags_mem : (s.setFlags v).mem = s.mem := rfl
@[simp] theorem State.setFlags_regs : (s.setFlags v).regs = s.regs := rfl
@[simp] theorem State.setFlags_pc : (s.setFlags v).pc = s.pc := rfl
@[simp] theorem State.setFlags_fl : (s.setFlags v).fl = v := rfl
@[simp] theorem State.setFlags_status : (s.setFlags v).status = s.status := rfl
@[simp] theorem State.setFlags_out : (s.setFlags v).out = s.out := rfl

@[simp] theorem State.load_mem : (s.load l).mem = s.mem.place 0 l := rfl
@[simp] theorem State.load_regs : (s.load l).regs = s.regs := rfl
@[simp] theorem State.load_pc : (s.load l).pc = s.pc := rfl
@[simp] theorem State.load_fl : (s.load l).fl = s.fl := rfl
@[simp] theorem State.load_status : (s.load l).status = s.status := rfl
@[simp] theorem State.load_out : (s.load l).out = s.out := rfl

@[simp] theorem State.spDown_mem : (s.spDown).mem = s.mem := rfl
@[simp] theorem State.spDown_regs : (s.spDown).regs = s.regs.set Config.spIndex (s.sp - 1) := rfl
@[simp] theorem State.spDown_pc : (s.spDown).pc = s.pc := rfl
@[simp] theorem State.spDown_fl : (s.spDown).fl = s.fl := rfl
@[simp] theorem State.spDown_status : (s.spDown).status = s.status := rfl
@[simp] theorem State.spDown_out : (s.spDown).out = s.out := rfl

@[simp] theorem State.spUp_mem : (s.spUp).mem = s.mem := rfl
@[simp] theorem State.spUp_regs : (s.spUp).regs = s.regs.set Config.spIndex (s.sp + 1) := rfl
@[simp] theorem State.spUp_pc : (s.spUp).pc = s.pc := rfl
@[simp] theorem State.spUp_fl : (s.spUp).fl = s.fl := rfl
@[simp] theorem State.spUp_status : (s.spUp).status = s.status := rfl
@[simp] theorem State.spUp_out : (s.spUp).out = s.out := rfl

end Fields

/-! ### Registers -/

@[simp] theorem State.reg_setReg_same (s : State) (r : Reg) (v : Byte) : (s.setReg r v).reg r = v := by
  simp [State.reg, State.setReg]

@[simp] theorem State.reg_setReg_other (s : State) {r q : Reg} (v : Byte) (h : q ≠ r) :
    (s.setReg r v).reg q = s.reg q := by
  have : r.val ≠ q.val := fun e => h (Fin.ext e.symm)
  simp [State.reg, State.setReg, this]

theorem State.reg_setReg (s : State) (r q : Reg) (v : Byte) :
    (s.setReg r v).reg q = if q = r then v else s.reg q := by
  split
  · subst_vars; exact State.reg_setReg_same s _ v
  · exact State.reg_setReg_other s v ‹_›

@[simp] theorem State.reg_jump (s : State) (v : Byte) (r : Reg) : (s.jump v).reg r = s.reg r := rfl
@[simp] theorem State.reg_skip (s : State) (n : Nat) (r : Reg) : (s.skip n).reg r = s.reg r := rfl
@[simp] theorem State.reg_emit (s : State) (v : Byte) (r : Reg) : (s.emit v).reg r = s.reg r := rfl
@[simp] theorem State.reg_halt (s : State) (r : Reg) : s.halt.reg r = s.reg r := rfl
@[simp] theorem State.reg_raise (s : State) (e : EngineError) (r : Reg) : (s.raise e).reg r = s.reg r := rfl
@[simp] theorem State.reg_setFlags (s : State) (v : Byte) (r : Reg) : (s.setFlags v).reg r = s.reg r := rfl

@[simp] theorem State.sp_spDown (s : State) : s.spDown.sp = s.sp - 1 := by
  simp [State.spDown, State.sp]

@[simp] theorem State.sp_spUp (s : State) : s.spUp.sp = s.sp + 1 := by
  simp [State.spUp, State.sp]

@[simp] theorem State.reg_spDown_other (s : State) {q : Reg} (h : q ≠ 7) : s.spDown.reg q = s.reg q :=
  State.reg_setReg_other s _ h

@[simp] theorem State.reg_spUp_other (s : State) {q : Reg} (h : q ≠ 7) : s.spUp.reg q = s.reg q :=
  State.reg_setReg_other s _ h

end Sys2Proof.Machine
end

