-- ==== Sys2Proof/Laws/Ops.lean ====
section
/-! SUPPORT. One specification lemma per shared operation: everything it can answer. Proofs about instructions
cite these instead of unfolding the operations. -/

namespace Sys2Proof.Machine

/-! ### Memory accesses -/

@[simp] theorem memRead_inRange (s : State) {addr : Nat} (h : addr < 256) :
    memRead s addr = .ok (s.mem.read addr) := by
  simp [memRead, Config.memSize, h]

@[simp] theorem memRead_outOfRange (s : State) {addr : Nat} (h : 256 ≤ addr) :
    memRead s addr = .error (.memoryRange s.pc addr) := by
  simp [memRead, Config.memSize, Nat.not_lt.mpr h]

@[simp] theorem memWrite_inRange (s : State) {addr : Nat} (v : Byte) (h : addr < 256) :
    memWrite s addr v = .ok { s with mem := s.mem.write addr v } := by
  simp [memWrite, Config.memSize, h]

/-- A data address held in a register is always in range (R26). -/
theorem byte_inRange (v : Byte) : v.toNat < 256 := v.isLt

/-! ### Operand validation -/

theorem withReg_legal (s : State) (w : OperandSlot) {v : Byte} (k : Reg → Except EngineError State) {r : Reg}
    (h : v.toNat = r.val) : withReg s w v k = k r := by
  have hr : v.toNat < Config.nreg := h ▸ r.isLt
  rw [withReg, dif_pos hr]
  congr 1
  exact Fin.ext h

theorem withReg_illegal (s : State) (w : OperandSlot) {v : Byte} (k : Reg → Except EngineError State)
    (h : 7 < v.toNat) : withReg s w v k = .error (.registerRange s.pc w v) := by
  rw [withReg, dif_neg (by simp [Config.nreg]; omega)]

theorem withRegs_legal (s : State) {a b : Byte} (k : Reg → Reg → Except EngineError State) {ra rb : Reg}
    (ha : a.toNat = ra.val) (hb : b.toNat = rb.val) : withRegs s a b k = k ra rb := by
  rw [withRegs, withReg_legal s _ _ ha, withReg_legal s _ _ hb]

/-- An operand byte names a register or is above 7. -/
theorem reg_or_illegal (v : Byte) : (∃ r : Reg, v.toNat = r.val) ∨ 7 < v.toNat := by
  by_cases h : v.toNat < 8
  · exact .inl ⟨⟨v.toNat, h⟩, rfl⟩
  · exact .inr (by omega)

/-- The two ways a validated handler ends. -/
theorem withReg_cases (s : State) (w : OperandSlot) (v : Byte) (k : Reg → Except EngineError State) :
    (∃ r : Reg, v.toNat = r.val ∧ withReg s w v k = k r) ∨
      (7 < v.toNat ∧ withReg s w v k = .error (.registerRange s.pc w v)) := by
  rcases reg_or_illegal v with ⟨r, h⟩ | h
  · exact .inl ⟨r, h, withReg_legal s w k h⟩
  · exact .inr ⟨h, withReg_illegal s w k h⟩

/-- The three ways a handler with two register operands ends. -/
theorem withRegs_cases (s : State) (a b : Byte) (k : Reg → Reg → Except EngineError State) :
    (∃ ra rb : Reg, a.toNat = ra.val ∧ b.toNat = rb.val ∧ withRegs s a b k = k ra rb) ∨
      (7 < a.toNat ∧ withRegs s a b k = .error (.registerRange s.pc .a a)) ∨
      (a.toNat ≤ 7 ∧ 7 < b.toNat ∧ withRegs s a b k = .error (.registerRange s.pc .b b)) := by
  rcases reg_or_illegal a with ⟨ra, ha⟩ | ha
  · rcases reg_or_illegal b with ⟨rb, hb⟩ | hb
    · exact .inl ⟨ra, rb, ha, hb, withRegs_legal s k ha hb⟩
    · refine .inr (.inr ⟨by omega, hb, ?_⟩)
      rw [withRegs, withReg_legal s _ _ ha, withReg_illegal s _ _ hb]
  · exact .inr (.inl ⟨ha, by rw [withRegs, withReg_illegal s _ _ ha]⟩)

/-! ### The ALU as the engine uses it -/

@[simp] theorem alu_add (a b : Reg) (s : State) : alu .add a b s = .ok (s.setReg a (s.reg a + s.reg b)) := rfl

@[simp] theorem alu_mul (a b : Reg) (s : State) : alu .mul a b s = .ok (s.setReg a (s.reg a * s.reg b)) := rfl

/-- Whatever the operation, the block writes `x[a]` only, or raises ALUError (R59). -/
theorem alu_cases (op : AluOp) (a b : Reg) (s : State) :
    (∃ v, alu op a b s = .ok (s.setReg a v)) ∨ (∃ c, alu op a b s = .error (.aluError s.pc c)) := by
  unfold alu
  split
  · exact .inl ⟨_, rfl⟩
  · exact .inr ⟨_, rfl⟩

/-! ### The stack primitives -/

theorem pushWith_eq (v : State → Byte) (s : State) :
    pushWith v s = .ok { s.spDown with mem := s.mem.write (s.sp - 1).toNat (v s.spDown) } := by
  rw [pushWith, memWrite_inRange _ _ (byte_inRange _), State.sp_spDown, State.spDown_mem]

theorem push_eq (v : Byte) (s : State) :
    push v s = .ok { s.spDown with mem := s.mem.write (s.sp - 1).toNat v } := pushWith_eq _ s

theorem popInto_eq (r : Reg) (s : State) :
    popInto r s = .ok (s.setReg r (s.mem.read s.sp.toNat)).spUp := by
  rw [popInto, memRead_inRange _ (byte_inRange _)]

/-! ### The end of a step -/

@[simp] theorem conclude_ok (s s' : State) (op : Byte) : conclude s op (.ok s') = .next (s'.advance op) := rfl

@[simp] theorem conclude_error (s : State) (e : EngineError) (op : Byte) :
    conclude s op (.error e) = .next (s.raise e) := rfl

@[simp] theorem State.advance_hlt (s : State) : s.advance opHlt = s.skip 1 := rfl
@[simp] theorem State.advance_ldi (s : State) : s.advance opLdi = s.skip 3 := rfl
@[simp] theorem State.advance_prn (s : State) : s.advance opPrn = s.skip 2 := rfl
@[simp] theorem State.advance_mul (s : State) : s.advance opMul = s.skip 3 := rfl
@[simp] theorem State.advance_add (s : State) : s.advance opAdd = s.skip 3 := rfl
@[simp] theorem State.advance_push (s : State) : s.advance opPush = s.skip 2 := rfl
@[simp] theorem State.advance_pop (s : State) : s.advance opPop = s.skip 2 := rfl
@[simp] theorem State.advance_cmp (s : State) : s.advance opCmp = s.skip 3 := rfl
@[simp] theorem State.advance_call (s : State) : s.advance opCall = s := rfl
@[simp] theorem State.advance_ret (s : State) : s.advance opRet = s := rfl
@[simp] theorem State.advance_jmp (s : State) : s.advance opJmp = s := rfl
@[simp] theorem State.advance_jeq (s : State) : s.advance opJeq = s := rfl
@[simp] theorem State.advance_jne (s : State) : s.advance opJne = s := rfl

/-- `pc` arithmetic is addition of natural numbers wherever a fetch succeeds (R8). -/
theorem State.skip_pc_toNat (s : State) {n : Nat} (h : s.pc.toNat ≤ 253) (hn : n ≤ 3) :
    (s.skip n).pc.toNat = s.pc.toNat + n := by
  simp only [State.skip_pc, BitVec.toNat_add, BitVec.toNat_ofNat]
  omega

/-- A transfer loads an 8-bit value (R85). -/
theorem State.jump_pc_toNat (s : State) (v : Byte) : (s.jump v).pc.toNat = v.toNat := by
  have := v.isLt
  simp only [State.jump_pc, BitVec.toNat_setWidth]
  omega

end Sys2Proof.Machine
end

