-- ==== Sys2Proof/Laws/Step.lean ====
section
/-! SUPPORT. What the fetch, the decoder and the step can answer. -/

namespace Sys2Proof

/-- A successful lookup finds a row of the table. -/
theorem lookup_mem {α β : Type} [BEq α] [LawfulBEq α] {k : α} {v : β} {l : List (α × β)}
    (h : l.lookup k = some v) : (k, v) ∈ l := by
  induction l with
  | nil => cases h
  | cons c rest ih =>
    obtain ⟨k', v'⟩ := c
    rw [List.lookup] at h
    split at h
    · rename_i hk
      cases h
      rw [eq_of_beq hk]
      exact List.mem_cons_self
    · exact List.mem_cons_of_mem _ (ih h)

/-- The instruction decoded carries the opcode byte it was decoded from. -/
theorem decode_opcode {ir a b : Byte} {i : Instr} (h : decode ir a b = .ok i) : i.opcode = ir := by
  unfold decode at h
  split at h
  · rename_i handler hl
    cases h
    have hm := lookup_mem hl
    simp only [dispatchTable, List.mem_cons, Prod.mk.injEq, List.not_mem_nil, or_false] at hm
    rcases hm with h | h | h | h | h | h | h | h | h | h | h | h | h <;> obtain ⟨rfl, rfl⟩ := h <;> rfl
  · cases h

namespace Machine

@[simp] theorem fetch_inRange {s : State} (h : s.pc.toNat ≤ 253) :
    fetch s = .ok (s.mem.read s.pc.toNat, s.mem.read (s.pc.toNat + 1), s.mem.read (s.pc.toNat + 2)) := by
  simp only [fetch, memRead_inRange s (show s.pc.toNat < 256 by omega),
    memRead_inRange s (show s.pc.toNat + 1 < 256 by omega), memRead_inRange s (show s.pc.toNat + 2 < 256 by omega)]

/-- What decoding the latches makes of them (R50). -/
theorem fetchDecode_inRange {s : State} (h : s.pc.toNat ≤ 253) :
    fetchDecode s =
      match decode (s.mem.read s.pc.toNat) (s.mem.read (s.pc.toNat + 1)) (s.mem.read (s.pc.toNat + 2)) with
      | .ok i => .ok i
      | .error _ => .error (.decodeError s.pc (s.mem.read s.pc.toNat)) := by
  rw [fetchDecode, fetch_inRange h] <;> rfl

/-- Everything a step can be: none, error entry from the fetch or decode, or a dispatched instruction. -/
theorem step_cases {s t : State} (h : step s = .next t) :
    (s.status ≠ .running ∧ t = s) ∨
      (s.status = .running ∧ ∃ e, fetchDecode s = .error e ∧ t = s.raise e) ∨
      (s.status = .running ∧ ∃ i, fetchDecode s = .ok i ∧ exec i s = .next t) := by
  simp only [step, State.takesStep, decide_eq_true_eq] at h
  split at h
  · rename_i hr
    split at h
    · rename_i i hi; exact .inr (.inr ⟨hr, i, hi, h⟩)
    · rename_i e he; cases h; exact .inr (.inl ⟨hr, e, he, rfl⟩)
  · rename_i hr; cases h; exact .inl ⟨hr, rfl⟩

end Machine

end Sys2Proof
end

