-- ==== Sys2Proof/Laws/Exec.lean ====
section
/-! SUPPORT. Everything `exec` can answer, said once: the effect of each instruction on legal operands in terms of
the named operations, or error entry for the first illegal register operand. Proofs over all instructions take
cases of `exec_effect` and unfold no meaning. -/

namespace Sys2Proof.Machine

/-- `Effect s i t`: executing `i` in `s` may leave `t`. -/
inductive Effect (s : State) : Instr → State → Prop where
  | hlt : Effect s .hlt (s.halt.skip 1)
  | ldi {a b : Byte} {r : Reg} (ha : a.toNat = r.val) : Effect s (.ldi a b) ((s.setReg r b).skip 3)
  | prn {a : Byte} {r : Reg} (ha : a.toNat = r.val) : Effect s (.prn a) ((s.emit (s.reg r)).skip 2)
  | mul {a b : Byte} {r q : Reg} (ha : a.toNat = r.val) (hb : b.toNat = q.val) :
      Effect s (.mul a b) ((s.setReg r (s.reg r * s.reg q)).skip 3)
  | add {a b : Byte} {r q : Reg} (ha : a.toNat = r.val) (hb : b.toNat = q.val) :
      Effect s (.add a b) ((s.setReg r (s.reg r + s.reg q)).skip 3)
  | push {a : Byte} {r : Reg} (ha : a.toNat = r.val) :
      Effect s (.push a)
        (State.skip { s.spDown with mem := s.mem.write (s.sp - 1).toNat (s.spDown.reg r) } 2)
  | pop {a : Byte} {r : Reg} (ha : a.toNat = r.val) :
      Effect s (.pop a) ((s.setReg r (s.mem.read s.sp.toNat)).spUp.skip 2)
  | call {a : Byte} {r : Reg} (ha : a.toNat = r.val) :
      Effect s (.call a)
        (State.jump { s.spDown with mem := s.mem.write (s.sp - 1).toNat s.returnAddress } (s.spDown.reg r))
  | ret {a : Byte} {r : Reg} (ha : a.toNat = r.val) :
      Effect s (.ret a) ((s.setReg r (s.mem.read s.sp.toNat)).spUp.jump
        ((s.setReg r (s.mem.read s.sp.toNat)).spUp.reg r))
  | cmp {a b : Byte} {r q : Reg} (ha : a.toNat = r.val) (hb : b.toNat = q.val) :
      Effect s (.cmp a b) ((s.setFlags (compareFlags (s.reg r) (s.reg q))).skip 3)
  | jmp {a : Byte} {r : Reg} (ha : a.toNat = r.val) : Effect s (.jmp a) (s.jump (s.reg r))
  | jeq {a : Byte} {r : Reg} (ha : a.toNat = r.val) : Effect s (.jeq a) (branchIf (flagE s.fl) r s)
  | jne {a : Byte} {r : Reg} (ha : a.toNat = r.val) : Effect s (.jne a) (branchIf (!flagE s.fl) r s)
  | illegalA {i : Instr} {a : Byte} (hi : i.registerBytes.head? = some a) (ha : 7 < a.toNat) :
      Effect s i (s.raise (.registerRange s.pc .a a))
  | illegalB {i : Instr} {a b : Byte} (hi : i.registerBytes = [a, b]) (ha : a.toNat ≤ 7) (hb : 7 < b.toNat) :
      Effect s i (s.raise (.registerRange s.pc .b b))

/-- A meaning with one register operand either has the effect `k r` or raises. -/
theorem effect_of_withReg {s t : State} {i : Instr} {op a : Byte} {k : Reg → State}
    (hi : i.registerBytes.head? = some a) (hk : ∀ r : Reg, a.toNat = r.val → Effect s i ((k r).advance op))
    (h : conclude s op (withReg s .a a fun r => .ok (k r)) = .next t) : Effect s i t := by
  rcases withReg_cases s .a a (fun r => .ok (k r)) with ⟨r, hr, he⟩ | ⟨h7, he⟩
  · rw [he] at h
    cases h
    exact hk r hr
  · rw [he] at h
    cases h
    exact .illegalA hi h7

/-- A meaning with two register operands either has the effect `k r q` or raises. -/
theorem effect_of_withRegs {s t : State} {i : Instr} {op a b : Byte} {k : Reg → Reg → State}
    (hi : i.registerBytes = [a, b])
    (hk : ∀ r q : Reg, a.toNat = r.val → b.toNat = q.val → Effect s i ((k r q).advance op))
    (h : conclude s op (withRegs s a b fun r q => .ok (k r q)) = .next t) : Effect s i t := by
  rcases withRegs_cases s a b (fun r q => .ok (k r q)) with ⟨r, q, hr, hq, he⟩ | ⟨h7, he⟩ | ⟨ha, h7, he⟩
  · rw [he] at h
    cases h
    exact hk r q hr hq
  · rw [he] at h
    cases h
    exact .illegalA (by rw [hi]; rfl) h7
  · rw [he] at h
    cases h
    exact .illegalB hi ha h7

/-- The inversion lemma of `exec`. -/
theorem exec_effect {i : Instr} {s t : State} (h : exec i s = .next t) : Effect s i t := by
  cases i with
  | hlt => cases h; exact .hlt
  | ldi a b => exact effect_of_withReg (k := fun r => s.setReg r b) rfl (fun _ => .ldi) h
  | prn a => exact effect_of_withReg (k := fun r => s.emit (s.reg r)) rfl (fun _ => .prn) h
  | mul a b =>
    exact effect_of_withRegs (k := fun r q => s.setReg r (s.reg r * s.reg q)) rfl (fun _ _ => .mul) h
  | add a b =>
    exact effect_of_withRegs (k := fun r q => s.setReg r (s.reg r + s.reg q)) rfl (fun _ _ => .add) h
  | push a =>
    simp only [exec, execPush, pushWith_eq] at h
    exact effect_of_withReg rfl (fun _ => .push) h
  | pop a =>
    simp only [exec, execPop, popInto_eq] at h
    exact effect_of_withReg (k := fun r => (s.setReg r _).spUp) rfl (fun _ => .pop) h
  | call a =>
    simp only [exec, execCall, push_eq] at h
    exact effect_of_withReg (k := fun r => State.jump { s.spDown with mem := _ } (s.spDown.reg r)) rfl
      (fun _ => .call) h
  | ret a =>
    simp only [exec, execRet, popInto_eq] at h
    exact effect_of_withReg (k := fun r => (s.setReg r (s.mem.read s.sp.toNat)).spUp.jump
      ((s.setReg r (s.mem.read s.sp.toNat)).spUp.reg r)) rfl (fun _ => .ret) h
  | cmp a b =>
    exact effect_of_withRegs (k := fun r q => s.setFlags (compareFlags (s.reg r) (s.reg q))) rfl
      (fun _ _ => .cmp) h
  | jmp a => exact effect_of_withReg (k := fun r => s.jump (s.reg r)) rfl (fun _ => .jmp) h
  | jeq a => exact effect_of_withReg (k := fun r => branchIf (flagE s.fl) r s) rfl (fun _ => .jeq) h
  | jne a => exact effect_of_withReg (k := fun r => branchIf (!flagE s.fl) r s) rfl (fun _ => .jne) h

/-- A branch changes `pc` only. -/
theorem branchIf_frame (c : Bool) (r : Reg) (s : State) :
    (branchIf c r s).mem = s.mem ∧ (branchIf c r s).regs = s.regs ∧ (branchIf c r s).fl = s.fl ∧
      (branchIf c r s).status = s.status ∧ (branchIf c r s).out = s.out := by
  cases c <;> exact ⟨rfl, rfl, rfl, rfl, rfl⟩

end Sys2Proof.Machine
end

