-- ==== Sys2Proof/Laws/PerInstr.lean ====
section
/-! SUPPORT. The per-instruction family BitTests: spec/30_encoding.md R47, for each of the 13 instructions the
two bit tests of its opcode agree with its format and with the table's PC-mutating column. -/

namespace Sys2Proof.Laws.BitTests

/-- The table's PC-mutating column (R42). -/
def pcmColumn : Instr → Bool
  | .hlt | .ldi _ _ | .prn _ | .mul _ _ | .add _ _ | .push _ | .pop _ | .cmp _ _ => false
  | .call _ | .ret _ | .jmp _ | .jeq _ | .jne _ => true

/-- `opcode[7:6]` is the number of operand bytes encoded, so the instruction is NOPS + 1 bytes long (R38), and
`opcode[4]` is the PC-mutating column (R39). -/
def Statement (i : Instr) : Prop :=
  i.operandBytes.length = nops i.opcode ∧ (encode i).length = nops i.opcode + 1 ∧
    pcMutating i.opcode = pcmColumn i

/-- The three clauses follow from the two bit tests of the opcode byte. -/
theorem of_bits {i : Instr} {op : Byte} (hop : i.opcode = op) (hlen : i.operandBytes.length = nops op)
    (hp : pcMutating op = pcmColumn i) : Statement i := by
  subst hop
  exact ⟨hlen, congrArg (· + 1) hlen, hp⟩

theorem hlt : Statement .hlt := of_bits (op := opHlt) rfl rfl rfl
theorem ldi (a b : Byte) : Statement (.ldi a b) := of_bits (op := opLdi) rfl (show 2 = nops opLdi by decide) rfl
theorem prn (a : Byte) : Statement (.prn a) := of_bits (op := opPrn) rfl rfl rfl
theorem mul (a b : Byte) : Statement (.mul a b) := of_bits (op := opMul) rfl (show 2 = nops opMul by decide) rfl
theorem add (a b : Byte) : Statement (.add a b) := of_bits (op := opAdd) rfl (show 2 = nops opAdd by decide) rfl
theorem push (a : Byte) : Statement (.push a) := of_bits (op := opPush) rfl rfl rfl
theorem pop (a : Byte) : Statement (.pop a) := of_bits (op := opPop) rfl rfl rfl
theorem call (a : Byte) : Statement (.call a) := of_bits (op := opCall) rfl rfl rfl
theorem ret (r : Byte) : Statement (.ret r) := of_bits (op := opRet) rfl rfl rfl
theorem cmp (a b : Byte) : Statement (.cmp a b) := of_bits (op := opCmp) rfl (show 2 = nops opCmp by decide) rfl
theorem jmp (a : Byte) : Statement (.jmp a) := of_bits (op := opJmp) rfl rfl rfl
theorem jeq (a : Byte) : Statement (.jeq a) := of_bits (op := opJeq) rfl rfl rfl
theorem jne (a : Byte) : Statement (.jne a) := of_bits (op := opJne) rfl rfl rfl

end Sys2Proof.Laws.BitTests
end

