-- ==== Sys2Proof/Tests/Slice0.lean ====
section
/-! SUPPORT. The model's own tests. Expected results are the vectors of spec/95_test_vectors.md (named E, L, A, S,
C, J, X there) or are computed by hand from the rule named. Last come the witnesses: for each statement with
hypotheses, a state and operands that meet them. -/

namespace Sys2Proof.Machine.Tests

/-! ### Helpers -/

/-- The reset state with `pc` and with `bytes` from there on. -/
def atPc (pc : Pc) (bytes : List Byte) : State :=
  { State.reset with pc := pc, mem := Memory.place [] pc.toNat bytes }

/-- The state a result leaves, if any. -/
def after : Result → Option State
  | .next s => some s
  | .fault _ => none
  | .refused _ => none

/-- What `f` shows of the state after one step. -/
def see {α : Type} (f : State → α) (s : State) : Option α := (after (step s)).map f

/-! ### WellFormed: an ill-formed term for each check -/

theorem test_wf_ldi_immediate_is_free : (Instr.ldi 7 255).wellFormed = true := by decide
theorem test_wf_ldi_bad : (Instr.ldi 8 0).wellFormed = false := by decide
theorem test_wf_prn_bad : (Instr.prn 8).wellFormed = false := by decide
theorem test_wf_mul_bad_a : (Instr.mul 8 0).wellFormed = false := by decide
theorem test_wf_mul_bad_b : (Instr.mul 0 8).wellFormed = false := by decide
theorem test_wf_add_bad_a : (Instr.add 255 0).wellFormed = false := by decide
theorem test_wf_add_bad_b : (Instr.add 7 8).wellFormed = false := by decide
theorem test_wf_cmp_bad_a : (Instr.cmp 8 7).wellFormed = false := by decide
theorem test_wf_cmp_bad_b : (Instr.cmp 0 9).wellFormed = false := by decide
theorem test_wf_push_bad : (Instr.push 8).wellFormed = false := by decide
theorem test_wf_pop_bad : (Instr.pop 255).wellFormed = false := by decide
theorem test_wf_call_bad : (Instr.call 8).wellFormed = false := by decide
theorem test_wf_ret_bad : (Instr.ret 0x47).wellFormed = false := by decide
theorem test_wf_jmp_bad : (Instr.jmp 8).wellFormed = false := by decide
theorem test_wf_jeq_bad : (Instr.jeq 9).wellFormed = false := by decide
theorem test_wf_jne_bad : (Instr.jne 8).wellFormed = false := by decide
theorem test_wf_hlt : Instr.hlt.wellFormed = true := by decide

/-! ### Decoding: one word of each constructor, its bits written out from R42 and opcode_table.json -/

theorem test_decode_hlt : decodeBytes [0b00000001, 0xFF, 0xFF] = .ok .hlt := rfl
theorem test_decode_ldi : decodeBytes [0b10000010, 0b00000011, 0b11001000] = .ok (.ldi 3 200) := rfl
theorem test_decode_prn : decodeBytes [0b01000111, 0b00000010, 0xFF] = .ok (.prn 2) := rfl
theorem test_decode_mul : decodeBytes [0b10100010, 0b00000000, 0b00000111] = .ok (.mul 0 7) := rfl
theorem test_decode_add : decodeBytes [0b10100000, 0b00000010, 0b00000011] = .ok (.add 2 3) := rfl
theorem test_decode_push : decodeBytes [0b01000101, 0b00000111, 0x00] = .ok (.push 7) := rfl
theorem test_decode_pop : decodeBytes [0b01000110, 0b00000001, 0x00] = .ok (.pop 1) := rfl
theorem test_decode_call : decodeBytes [0b01010000, 0b00000001, 0x47] = .ok (.call 1) := rfl
theorem test_decode_ret : decodeBytes [0b00010001, 0b00000101, 0x47] = .ok (.ret 5) := rfl
theorem test_decode_cmp : decodeBytes [0b10100111, 0b00000000, 0b00000010] = .ok (.cmp 0 2) := rfl
theorem test_decode_jmp : decodeBytes [0b01010100, 0b00000011, 0x00] = .ok (.jmp 3) := rfl
theorem test_decode_jeq : decodeBytes [0b01010101, 0b00000010, 0x00] = .ok (.jeq 2) := rfl
theorem test_decode_jne : decodeBytes [0b01010110, 0b00000010, 0x00] = .ok (.jne 2) := rfl
/-- The LS-8 byte for AND is unknown here (X3). -/
theorem test_decode_and_is_unknown : decodeBytes [0xA8, 0, 1] = .error (.unknownOpcode 0xA8) := rfl
theorem test_decode_needs_three : decodeBytes [0x01, 0x00] = .error .truncated := rfl
theorem test_encode_ldi : encode (.ldi 3 200) = [0x82, 0x03, 0xC8] := by decide
theorem test_encode_ret : encode (.ret 5) = [0x11] ∧ (Instr.ret 5).following = [0x05] := by decide
/-- No two rows of the dispatch table share an opcode byte, and there are 13. -/
theorem test_dispatch_table_distinct :
    (dispatchTable.map Prod.fst).Nodup ∧ dispatchTable.map Prod.fst = recognisedOpcodes := by decide
theorem test_table_word_ldi : decodeTableWord 24 0xC80382 = some (.ldi 3 200) := by decide
theorem test_withFetchWord_runs :
    see (fun t => (t.reg 3, t.pc)) (State.reset.withFetchWord 24 0xC80382) = some (200, 3) := by decide

/-! ### The step (E, X) -/

theorem test_E1_hlt : see (fun t => (t.pc, t.status)) (atPc 0 [0x01]) = some (1, .halted) := by decide
theorem test_E4_hlt_at_253 : see (fun t => (t.pc, t.status)) (atPc 253 [0x01]) = some (254, .halted) := by decide
theorem test_E5_fetch_254 :
    see (fun t => (t.pc, t.status)) (atPc 254 [0x01]) = some (254, .faulted (.memoryRange 254 256)) := by decide
theorem test_E6_fetch_255 : see State.status (atPc 255 [0x01]) = some (.faulted (.memoryRange 255 256)) := by decide
theorem test_E7_runs_off_the_top : see (fun t => (t.pc, see State.status t)) (atPc 253 [0x82, 0x00, 0x07]) =
    some (256, some (.faulted (.memoryRange 256 256))) := by decide
theorem test_E9_no_nop : see State.status State.reset = some (.faulted (.decodeError 0 0x00)) := by decide
theorem test_X5_decode_before_validate :
    see State.status (atPc 0 [0xFF, 9, 9]) = some (.faulted (.decodeError 0 0xFF)) := by decide
theorem test_X7_a_before_b :
    see State.status (atPc 0 [0xA7, 0x0A, 0x0B]) = some (.faulted (.registerRange 0 .a 10)) := by decide

/-! ### LDI, PRN (L) -/

theorem test_L3_ldi_sp : see (fun t => (t.sp, t.pc)) (atPc 0 [0x82, 0x07, 0x10]) = some (0x10, 3) := by decide
theorem test_L4_ldi_bad : see (fun t => (t.status, t.pc, t.regs)) (atPc 0 [0x82, 0x08, 0x01]) =
    some (.faulted (.registerRange 0 .a 8), 0, State.reset.regs) := by decide
theorem test_L7_prn_sp : see (fun t => (t.out, t.pc)) (atPc 0 [0x47, 0x07]) = some ([244], 2) := by decide
theorem test_L9_order_kept :
    see (fun t => t.out) { atPc 0 [0x47, 0x07] with out := [7, 3] } = some [7, 3, 244] := by decide
theorem test_render_255 : render 255 = ['2', '5', '5', '\n'] := by decide
theorem test_render_0 : render 0 = ['0', '\n'] := by decide

/-! ### The ALU, MUL, ADD (A) -/

theorem test_A9_mul : aluCompute .mul 255 255 = .ok 1 := rfl
theorem test_A3_add : aluCompute .add 200 100 = .ok 44 := rfl
theorem test_A16_xor : aluCompute .xor 0xCC 0xAA = .ok 0x66 := rfl
theorem test_A14_and_A15_or : aluCompute .and 0xCC 0xAA = .ok 0x88 ∧ aluCompute .or 0xCC 0xAA = .ok 0xEE := ⟨rfl, rfl⟩
theorem test_A18_not : aluCompute .not 0x0F 3 = .ok 0xF0 := rfl
theorem test_A20_A23_shl : aluCompute .shl 0x81 1 = .ok 0x02 ∧ aluCompute .shl 0xFF 200 = .ok 0 := ⟨rfl, rfl⟩
theorem test_A26_A28_shr : aluCompute .shr 0x81 1 = .ok 0x40 ∧ aluCompute .shr 0xFF 8 = .ok 0 := ⟨rfl, rfl⟩
theorem test_A30_A34_mod : aluCompute .mod 17 5 = .ok 2 ∧ aluCompute .mod 9 0 = .error .divideByZero := ⟨rfl, rfl⟩
theorem test_A43_mul_sp : see (fun t => (t.reg 0, t.pc)) (State.setReg (atPc 0 [0xA2, 0x00, 0x07]) 0 4) =
    some (0xD0, 3) := by decide
theorem test_A45_add_bad_b :
    see State.status (atPc 0 [0xA0, 0x00, 0x08]) = some (.faulted (.registerRange 0 .b 8)) := by decide
theorem test_A42_add_sp : see (fun t => (t.sp, t.pc, t.fl)) (State.setReg (atPc 0 [0xA0, 0x07, 0x00]) 0 4) =
    some (0xF8, 3, 0) := by decide

/-! ### The stack (S) -/

theorem test_S4_push_r7 : see (fun t => (t.sp, t.mem.read 0xF3, t.pc)) (atPc 0 [0x45, 0x07]) =
    some (0xF3, 0xF3, 2) := by decide
theorem test_S6_push_wraps :
    see (fun t => (t.sp, t.mem.read 0xFF)) (((atPc 0 [0x45, 0x00]).setReg 7 0).setReg 0 0xAB) =
      some (0xFF, 0xAB) := by decide
theorem test_S5_pop_r7 : see (fun t => t.sp) { State.reset with mem := [(0, 0x46), (1, 0x07), (0xF4, 0x20)] } =
    some 0x21 := by decide
theorem test_S7_pop_wraps : see (fun t => (t.sp, t.reg 0)) { State.reset.setReg 7 0xFF with mem := [(0, 0x46), (0xFF, 0x77)] } =
    some (0x00, 0x77) := by decide

/-! ### CMP (C) -/

theorem test_C4_unsigned : see (fun t => (t.fl, t.pc)) (((atPc 0 [0xA7, 0x00, 0x01]).setReg 0 200).setReg 1 100) =
    some (0x02, 3) := by decide
theorem test_C7_whole_byte :
    see State.fl ((((atPc 0 [0xA7, 0x00, 0x01]).setReg 0 5).setReg 1 5).setFlags 0x04) = some 0x01 := by decide

/-! ### Control flow (J) -/

theorem test_J3_jmp : see State.pc ((atPc 0 [0x54, 0x00]).setReg 0 0xFF) = some 255 := by decide
theorem test_J6_jeq : see State.pc (((atPc 0x10 [0x55, 0x02]).setReg 2 0x30).setFlags 0x01) = some 0x30 := by decide
theorem test_J12_jeq_checked_when_not_taken :
    see State.status ((atPc 0 [0x55, 0x09]).setFlags 0x02) = some (.faulted (.registerRange 0 .a 9)) := by decide
theorem test_J11_jne : see State.pc ((atPc 0x10 [0x56, 0x02]).setReg 2 0x30) = some 0x30 := by decide
theorem test_J13_jne_not_taken : see State.pc ((atPc 252 [0x56, 0x00]).setFlags 0x01) = some 254 := by decide
theorem test_J15_call_r7 : see (fun t => (t.sp, t.mem.read 0xF3, t.pc)) (atPc 0 [0x50, 0x07]) =
    some (0xF3, 0x02, 0xF3) := by decide
theorem test_J16_call_at_253 : see (fun t => (t.mem.read 0xF3, t.pc)) ((atPc 253 [0x50, 0x00]).setReg 0 0x10) =
    some (0xFF, 0x10) := by decide
theorem test_J20_ret_r7 : see (fun t => (t.sp, t.pc)) { State.reset with mem := [(0, 0x11), (1, 0x07), (0xF4, 0x30)] } =
    some (0x31, 0x31) := by decide
theorem test_J21_ret_bad : see (fun t => (t.status, t.sp)) (atPc 0 [0x11, 0x47]) =
    some (.faulted (.registerRange 0 .a 0x47), 0xF4) := by decide

/-! ### Memory -/

theorem test_write_of_zero_removes : Memory.write (Memory.write [] 5 1) 5 0 = [] := by decide
theorem test_write_sorts : Memory.write (Memory.write [] 9 1) 5 2 = [(5, 2), (9, 1)] := by decide
theorem test_not_wf_unsorted : Memory.wf [(9, 1), (5, 2)] = false := by decide
theorem test_not_wf_zero_entry : Memory.wf [(5, 0)] = false := by decide
theorem test_not_wf_outside : Memory.wf [(256, 1)] = false := by decide

/-! ### Witnesses of the statements' hypotheses -/

/-- A HLT at the last address an instruction can execute from. -/
theorem latches_hlt : (atPc 253 [0x01]).Latches 0x01 0x00 0x00 := ⟨rfl, by decide, rfl, rfl, rfl⟩

theorem witness_StepRunsTheDecodedInstruction :
    (atPc 253 [0x01]).Latches 0x01 0x00 0x00 ∧ decode 0x01 0x00 0x00 = .ok .hlt := ⟨latches_hlt, rfl⟩

theorem witness_StepRunsTheEncodedInstruction :
    (atPc 9 [0x11, 0x02]).status = .running ∧ (atPc 9 [0x11, 0x02]).pc.toNat ≤ 253 ∧
      ∀ (k : Nat) (v : Byte), (encode (.ret 2) ++ (Instr.ret 2).following)[k]? = some v →
        (atPc 9 [0x11, 0x02]).mem.read ((atPc 9 [0x11, 0x02]).pc.toNat + k) = v := by
  refine ⟨rfl, by decide, ?_⟩
  intro k v h
  match k with
  | 0 => cases h; rfl
  | 1 => cases h; rfl
  | k + 2 => cases h

theorem witness_stopped : State.reset.halt.status ≠ .running := by decide

theorem witness_FetchPastMemoryRaisesRangeError :
    (atPc 254 []).status = .running ∧ 254 ≤ (atPc 254 []).pc.toNat ∧ 254 ≤ (atPc 255 []).pc.toNat ∧
      254 ≤ (atPc 256 []).pc.toNat := by decide

theorem witness_UnknownOpcodeRaisesDecodeError :
    State.reset.Latches 0x00 0x00 0x00 ∧ (0x00 : Byte) ∉ recognisedOpcodes ∧
      (atPc 253 [0xC0]).Latches 0xC0 0x00 0x00 ∧ (0xC0 : Byte) ∉ recognisedOpcodes :=
  ⟨⟨rfl, by decide, rfl, rfl, rfl⟩, by decide, ⟨rfl, by decide, rfl, rfl, rfl⟩, by decide⟩

theorem witness_RegisterOperandAboveSevenRaises :
    7 < (8 : Byte).toNat ∧ (7 : Byte).toNat ≤ 7 := by decide

theorem witness_ErrorsArePrecise :
    State.reset.status = .running ∧
      step State.reset = .next (State.reset.raise (.decodeError 0 0x00)) ∧
      (State.reset.raise (.decodeError 0 0x00)).status = .faulted (.decodeError 0 0x00) := ⟨rfl, rfl, rfl⟩

theorem witness_OnlyHltReachesHalted :
    (atPc 253 [0x01]).status = .running ∧ ∃ t, step (atPc 253 [0x01]) = .next t ∧ t.status = .halted :=
  ⟨rfl, _, rfl, rfl⟩

theorem witness_AdvanceFollowsTheOpcodeBits_plain :
    (atPc 253 [0x82, 0x00, 0x07]).Latches 0x82 0x00 0x07 ∧ decode 0x82 0x00 0x07 = .ok (.ldi 0 7) ∧
      (Instr.ldi 0 7).wellFormed = true ∧ (∃ t, step (atPc 253 [0x82, 0x00, 0x07]) = .next t) ∧
      (0x82 : Byte).getLsbD 4 = false :=
  ⟨⟨rfl, by decide, rfl, rfl, rfl⟩, rfl, by decide, ⟨_, rfl⟩, by decide⟩

theorem witness_AdvanceFollowsTheOpcodeBits_jeq :
    (atPc 253 [0x55]).Latches 0x55 0x00 0x00 ∧ decode 0x55 0x00 0x00 = .ok (.jeq 0) ∧
      (Instr.jeq 0).wellFormed = true ∧ (∃ t, step (atPc 253 [0x55]) = .next t) ∧
      (0x55 : Byte).getLsbD 4 = true ∧ flagE (atPc 253 [0x55]).fl = false :=
  ⟨⟨rfl, by decide, rfl, rfl, rfl⟩, rfl, by decide, ⟨_, rfl⟩, by decide, by decide⟩

theorem witness_AdvanceFollowsTheOpcodeBits_jne :
    ((atPc 0 [0x56]).setFlags 0x01).Latches 0x56 0x00 0x00 ∧ decode 0x56 0x00 0x00 = .ok (.jne 0) ∧
      (Instr.jne 0).wellFormed = true ∧ (∃ t, step ((atPc 0 [0x56]).setFlags 0x01) = .next t) ∧
      flagE ((atPc 0 [0x56]).setFlags 0x01).fl = true :=
  ⟨⟨rfl, by decide, rfl, rfl, rfl⟩, rfl, by decide, ⟨_, rfl⟩, by decide⟩

/-- The hypotheses of the result statements of LDI, PRN, MUL, ADD, PUSH, POP, CALL, RET, CMP, JMP, JEQ and JNE, at the
first and the last register, on the state that CALL's range still admits. -/
theorem witness_legal_operands :
    (0 : Byte).toNat = (0 : Reg).val ∧ (7 : Byte).toNat = (7 : Reg).val ∧ (0 : Reg) ≠ 7 ∧
      (atPc 253 [0x50]).mem.wf = true ∧ (atPc 253 [0x50]).pc.toNat ≤ 253 := by decide

theorem witness_OnlyListedRegistersChange :
    (∃ t, exec (.ldi 0 5) State.reset = .next t) ∧ (6 : Reg).val ∉ (Instr.ldi 0 5).regsWritten :=
  ⟨⟨_, rfl⟩, by decide⟩

theorem witness_UnlistedRegistersAreNeverRead :
    (5 : Reg).val ∉ (Instr.push 0).regsRead ∧ (5 : Reg).val ∉ (Instr.push 0).regsWritten ∧
      ∃ t, exec (.push 0) State.reset = .next t := ⟨by decide, by decide, _, rfl⟩

theorem witness_OnlyCmpChangesTheFlags :
    ∃ t, step (atPc 0 [0xA7, 0x00, 0x07]) = .next t ∧ t.fl ≠ (atPc 0 [0xA7, 0x00, 0x07]).fl :=
  ⟨_, rfl, by decide⟩

theorem witness_OnlyTheEqualFlagIsRead :
    flagE 0x04 = flagE ((atPc 0 [0x55, 0x00]).setFlags 0x02).fl ∧
      ∃ t, step ((atPc 0 [0x55, 0x00]).setFlags 0x02) = .next t := ⟨by decide, _, rfl⟩

theorem witness_OnlyPushAndCallChangeMemory :
    (atPc 0 [0x45, 0x07]).mem.wf = true ∧ ∃ t, step (atPc 0 [0x45, 0x07]) = .next t ∧
      t.mem.read 0xF3 ≠ (atPc 0 [0x45, 0x07]).mem.read 0xF3 := ⟨by decide, _, rfl, by decide⟩

theorem witness_OutputGrowsOnlyByPrn :
    ∃ t, step (atPc 0 [0x47, 0x07]) = .next t ∧ t.out ≠ (atPc 0 [0x47, 0x07]).out := ⟨_, rfl, by decide⟩

theorem witness_LaunchStateHoldsTheImage :
    (List.replicate 256 (0x01 : Byte)).length ≤ 256 ∧ (∃ s, launch (List.replicate 256 0x01) = some s) ∧
      launch (List.replicate 257 0x01) = none := by
  refine ⟨Nat.le_of_eq List.length_replicate, ⟨_, if_pos ?_⟩, if_neg ?_⟩
  · exact Nat.le_of_eq List.length_replicate
  · rw [List.length_replicate]
    decide

theorem witness_EveryStepKeepsTheInvariant :
    State.reset.Inv ∧ ∃ t, step State.reset = .next t := ⟨⟨rfl, by decide, by decide, trivial⟩, _, rfl⟩

theorem witness_NoRunRaisesAluError :
    ∃ s t, launch [0x01] = some s ∧ core.run 2 s = .next t ∧ t.status = .halted := ⟨_, _, rfl, rfl, rfl⟩

theorem witness_PushThenPopRoundTrips :
    State.reset.mem.wf = true ∧ (0 : Byte).toNat = (0 : Reg).val ∧ (1 : Byte).toNat = (1 : Reg).val ∧
      (0 : Reg) ≠ 7 ∧ (1 : Reg) ≠ 7 := by decide

/-- The state a CALL leaves is itself one whose RET resumes. -/
theorem witness_RetResumesAfterTheCall :
    ∃ t, exec (.call 1) (atPc 253 [0x50, 0x01]) = .next t ∧ (atPc 253 [0x50, 0x01]).mem.wf = true ∧
      t.sp = t.sp ∧ t.mem.read t.sp.toNat = 0xFF ∧ (2 : Byte).toNat = (2 : Reg).val ∧ (2 : Reg) ≠ 7 :=
  ⟨_, rfl, by decide, rfl, by decide, by decide, by decide⟩

/-- The pushed byte lands in each of the three cells the next fetch reads, for three values of the pointer. -/
theorem witness_NextFetchSeesThePushedByte :
    (∃ t, exec (.push 0) (State.reset.setReg 7 3) = .next t ∧ fetch t = .ok (0, 0, 0) ∧
      t.pc.toNat = t.sp.toNat) ∧
    (∃ t, exec (.push 0) (State.reset.setReg 7 4) = .next t ∧ fetch t = .ok (0, 0, 0) ∧
      t.pc.toNat + 1 = t.sp.toNat) ∧
    (∃ t, exec (.push 0) (State.reset.setReg 7 5) = .next t ∧ fetch t = .ok (0, 0, 0) ∧
      t.pc.toNat + 2 = t.sp.toNat) :=
  ⟨⟨_, rfl, rfl, by decide⟩, ⟨_, rfl, rfl, by decide⟩, ⟨_, rfl, rfl, by decide⟩⟩

theorem witness_JumpToSelfNeverEnds :
    ((atPc 3 [0x54, 0x00]).setReg 0 3).Latches 0x54 0x00 0x00 ∧ (0 : Byte).toNat = (0 : Reg).val ∧
      (((atPc 3 [0x54, 0x00]).setReg 0 3).reg 0).toNat = ((atPc 3 [0x54, 0x00]).setReg 0 3).pc.toNat :=
  ⟨⟨rfl, by decide, rfl, rfl, rfl⟩, by decide, by decide⟩

theorem witness_EqualMemoriesAreEqualLists :
    Memory.wf [(0, 1), (255, 2)] = true ∧ Memory.wf (Memory.write [(255, 2)] 0 1) = true ∧
      ∀ x, x < 256 → Memory.read [(0, 1), (255, 2)] x = Memory.read (Memory.write [(255, 2)] 0 1) x :=
  ⟨by decide, by decide, fun _ _ => rfl⟩

theorem witness_MemoryAccessesFailFast :
    256 ≤ 256 ∧ State.reset.mem.wf = true ∧ 255 < 256 := by decide

theorem witness_AluComplementShiftsAndModulo :
    (State.reset.reg 0).toNat = 0 ∧ (State.reset.reg 7).toNat ≠ 0 := by decide

/-- Selectors and bytes for each clause: an unsupported selector on bytes above 7, NOT with an illegal second byte,
and a named operation at the first and the last register. -/
theorem witness_AluBlockSelection :
    aluBlock .unsupported 8 255 State.reset = .error (.aluError 0 .unsupportedOperation) ∧
      (7 : Byte).toNat = (7 : Reg).val ∧ aluBlock (.named .not) 7 255 State.reset = .ok (State.reset.setReg 7 0x0B) ∧
      (0 : Byte).toNat = (0 : Reg).val ∧ aluBlock (.named .xor) 0 7 State.reset = .ok (State.reset.setReg 0 0xF4) :=
  ⟨rfl, rfl, rfl, rfl, rfl⟩

theorem witness_AluBlockRefusesBytesAboveSeven :
    7 < (8 : Byte).toNat ∧ 7 < (255 : Byte).toNat ∧ (7 : Byte).toNat ≤ 7 ∧ AluOp.mod ≠ .not := by decide

theorem witness_TraceShowsPcBytesAndRegisters :
    (atPc 253 []).pc.toNat ≤ 253 ∧ (atPc 254 []).pc.toNat = 254 ∧ (atPc 255 []).pc.toNat = 255 ∧
      (atPc 256 []).pc.toNat = 256 := by decide

end Sys2Proof.Machine.Tests
end

/-! The decoder against the opcode table (spec/30_encoding.md R42, R43). -/

namespace Sys2Proof

/-- The decoder's keys, written in binary, are the table's hexadecimal column, in the same order (R42). -/
theorem dispatchTable_keys : dispatchTable.map Prod.fst = recognisedOpcodes := by decide

/-- No handler stands at a byte outside the 13 (R43). -/
theorem lookup_dispatchTable_eq_none {ir : Byte} (h : ir ∉ recognisedOpcodes) :
    dispatchTable.lookup ir = none := by
  rw [← dispatchTable_keys, List.mem_map] at h
  refine List.lookup_eq_none_iff.mpr fun row hrow => ?_
  simpa using fun heq : ir = row.1 => h ⟨row, hrow, heq.symm⟩

/-- Every other first byte is refused, whatever the operand bytes (R43). -/
theorem decode_unrecognised {ir : Byte} (h : ir ∉ recognisedOpcodes) (a b : Byte) :
    decode ir a b = .error (.unknownOpcode ir) := by
  simp only [decode, lookup_dispatchTable_eq_none h]

/-- Settles O2: a byte of the table selects its own row of the chain, and any other byte fails all 13 tests and is
refused. -/
theorem dispatchTableIsTheThirteenRows : Obligations.DispatchTableIsTheThirteenRows := by
  refine ⟨fun ir a b => ?_, by decide, by decide⟩
  by_cases hir : ir ∈ recognisedOpcodes
  · simp only [recognisedOpcodes, List.mem_cons, List.not_mem_nil, or_false] at hir
    rcases hir with rfl | rfl | rfl | rfl | rfl | rfl | rfl | rfl | rfl | rfl | rfl | rfl | rfl <;> rfl
  · rw [decode_unrecognised hir]
    simp only [recognisedOpcodes, List.mem_cons, List.not_mem_nil, or_false, not_or] at hir
    simp only [hir, if_false]

end Sys2Proof

/-! How far a step moves `pc` (spec/40_engine_cycle.md R49 to R54). -/

namespace Sys2Proof.Machine

/-- Where the latches decode, the step is the dispatched instruction (R49, R50, R52). -/
theorem State.Latches.step_eq_exec {s : State} {ir a b : Byte} {i : Instr} (hl : s.Latches ir a b)
    (hd : decode ir a b = .ok i) : step s = exec i s := by
  obtain ⟨hrun, hpc, rfl, rfl, rfl⟩ := hl
  have hf : fetchDecode s = .ok i := by rw [fetchDecode_inRange hpc, hd]
  rw [step, State.takesStep, hrun, hf]
  rfl

/-- No register operand of a well-formed instruction is out of range (R41). -/
theorem registerByte_not_above_seven {i : Instr} {v : Byte} (hw : i.wellFormed = true)
    (hv : v ∈ i.registerBytes) : ¬ 7 < v.toNat :=
  Nat.not_lt.mpr (Nat.le_of_lt_succ (of_decide_eq_true (List.all_eq_true.mp hw v hv)))

/-- NOPS is the number `opcode[7:6]` (R39). -/
theorem nops_eq_div (op : Byte) : nops op = op.toNat / 64 := by
  rw [nops, BitVec.toNat_ushiftRight, Nat.shiftRight_eq_div_pow]

/-- The bit tests of the opcode agree with the format of every instruction (R47). -/
theorem bitTests (i : Instr) : Laws.BitTests.Statement i :=
  match i with
  | .hlt => Laws.BitTests.hlt
  | .ldi a b => Laws.BitTests.ldi a b
  | .prn a => Laws.BitTests.prn a
  | .mul a b => Laws.BitTests.mul a b
  | .add a b => Laws.BitTests.add a b
  | .push a => Laws.BitTests.push a
  | .pop a => Laws.BitTests.pop a
  | .call a => Laws.BitTests.call a
  | .ret r => Laws.BitTests.ret r
  | .cmp a b => Laws.BitTests.cmp a b
  | .jmp a => Laws.BitTests.jmp a
  | .jeq a => Laws.BitTests.jeq a
  | .jne a => Laws.BitTests.jne a

/-- No instruction encodes more than two operand bytes (R40). -/
theorem operandBytes_length_le_two (i : Instr) : i.operandBytes.length ≤ 2 := by
  cases i <;> simp [Instr.operandBytes]

/-- An opcode with bit 4 set leaves `pc` as the handler set it (R53). -/
theorem State.advance_of_pcMutating {op : Byte} (h : pcMutating op = true) (u : State) : u.advance op = u := by
  rw [State.advance, if_pos h]

/-- An instruction with PCM = 0 and legal register operands moves `pc` over its own bytes (R53). -/
theorem Effect.pc_of_not_pcMutating {s t : State} {i : Instr} (h : Effect s i t) (hw : i.wellFormed = true)
    (hp : pcMutating i.opcode = false) : t.pc = (s.skip (i.operandBytes.length + 1)).pc := by
  obtain ⟨-, -, hpcm⟩ := bitTests i
  rw [hpcm] at hp
  cases h with
  | hlt | ldi | prn | mul | add | push | pop | cmp => rfl
  | call | ret | jmp | jeq | jne => cases hp
  | illegalA hi ha => exact absurd ha (registerByte_not_above_seven hw (List.mem_of_mem_head? hi))
  | illegalB hi _ hb => exact absurd hb (registerByte_not_above_seven hw (by simp [hi]))

/-- JEQ with a legal operand is the branch on `FL.E` (R81). -/
theorem Effect.eq_branchIf_of_jeq {s t : State} {a : Byte} (h : Effect s (.jeq a) t)
    (hw : (Instr.jeq a).wellFormed = true) : ∃ r : Reg, a.toNat = r.val ∧ t = branchIf (flagE s.fl) r s := by
  cases h with
  | jeq ha => exact ⟨_, ha, rfl⟩
  | illegalA hi ha => exact absurd ha (registerByte_not_above_seven hw (List.mem_of_mem_head? hi))
  | illegalB hi => cases hi

/-- JNE with a legal operand is the branch on the complement of `FL.E` (R82). -/
theorem Effect.eq_branchIf_of_jne {s t : State} {a : Byte} (h : Effect s (.jne a) t)
    (hw : (Instr.jne a).wellFormed = true) : ∃ r : Reg, a.toNat = r.val ∧ t = branchIf (!flagE s.fl) r s := by
  cases h with
  | jne ha => exact ⟨_, ha, rfl⟩
  | illegalA hi ha => exact absurd ha (registerByte_not_above_seven hw (List.mem_of_mem_head? hi))
  | illegalB hi => cases hi

/-- A branch that is not taken moves `pc` over its own two bytes (R81, R82). -/
theorem branchIf_false_pc_toNat {s : State} (r : Reg) (h : s.pc.toNat ≤ 253) :
    (branchIf false r s).pc.toNat = s.pc.toNat + 2 :=
  s.skip_pc_toNat h (by omega)

/-- Settles O13: each clause reads `pc` off the effect of the dispatched instruction. In the first, at
most two operand bytes follow the opcode, so from `pc` at most 253 nothing wraps. -/
theorem advanceFollowsTheOpcodeBits : Obligations.AdvanceFollowsTheOpcodeBits := by
  intro s t ir a b i hl hd hw hstep
  have hpc : s.pc.toNat ≤ 253 := hl.inRange
  have heff : Effect s i t := exec_effect (hl.step_eq_exec hd ▸ hstep)
  refine ⟨fun hbit => ?_, fun hbit => State.advance_of_pcMutating hbit, ?_, ?_⟩
  · obtain rfl := decode_opcode hd
    obtain ⟨hlen, -, -⟩ := bitTests i
    rw [nops_eq_div] at hlen
    have h2 := operandBytes_length_le_two i
    have ht : t.pc.toNat = s.pc.toNat + (i.operandBytes.length + 1) := by
      rw [heff.pc_of_not_pcMutating hw hbit, s.skip_pc_toNat hpc (by omega)]
    omega
  · rintro rfl hE
    obtain rfl : Instr.jeq a = i := Except.ok.inj hd
    obtain ⟨r, -, rfl⟩ := heff.eq_branchIf_of_jeq hw
    rw [hE, branchIf_false_pc_toNat r hpc]
  · rintro rfl hE
    obtain rfl : Instr.jne a = i := Except.ok.inj hd
    obtain ⟨r, -, rfl⟩ := heff.eq_branchIf_of_jne hw
    rw [hE, Bool.not_true, branchIf_false_pc_toNat r hpc]

end Sys2Proof.Machine

/-! LDI and PRN on a legal register operand (spec/41_load_and_output.md). -/

namespace Sys2Proof.Machine

/-- Once its register operand is validated, a handler that raises nothing ends in the advance of what it left
(R51 to R53). -/
theorem conclude_withReg_legal (s : State) (op : Byte) (w : OperandSlot) {v : Byte} (k : Reg → State) {r : Reg}
    (h : v.toNat = r.val) : conclude s op (withReg s w v fun q => .ok (k q)) = .next ((k r).advance op) := by
  rw [withReg_legal s w _ h, conclude_ok]

/-- LDI with a legal register writes it, then moves over its three bytes (R57). -/
theorem exec_ldi_legal (s : State) {a : Byte} (b : Byte) {r : Reg} (ha : a.toNat = r.val) :
    exec (.ldi a b) s = .next ((s.setReg r b).skip 3) := by
  rw [exec, execLdi, conclude_withReg_legal s opLdi .a (fun q => s.setReg q b) ha, State.advance_ldi]

/-- PRN with a legal register emits its value, then moves over its two bytes (R58). -/
theorem exec_prn_legal (s : State) {a : Byte} {r : Reg} (ha : a.toNat = r.val) :
    exec (.prn a) s = .next ((s.emit (s.reg r)).skip 2) := by
  rw [exec, execPrn, conclude_withReg_legal s opPrn .a (fun q => s.emit (s.reg q)) ha, State.advance_prn]

/-- Settles O16: the register write and the move of `pc` are the two fields that change. -/
theorem ldiWritesTheImmediate : Obligations.LdiWritesTheImmediate :=
  fun s _ _ b ha => exec_ldi_legal s b ha

/-- Settles O17: the emission and the move of `pc` are the two fields that change. -/
theorem prnAppendsTheRegister : Obligations.PrnAppendsTheRegister :=
  fun s _ _ ha => exec_prn_legal s ha

end Sys2Proof.Machine

/-! MUL, ADD and the five operations of the ALU block that no rule marks (spec/42_alu.md). -/

namespace Sys2Proof.Machine

@[simp] theorem alu_and (a b : Reg) (s : State) : alu .and a b s = .ok (s.setReg a (s.reg a &&& s.reg b)) := rfl
@[simp] theorem alu_or (a b : Reg) (s : State) : alu .or a b s = .ok (s.setReg a (s.reg a ||| s.reg b)) := rfl
@[simp] theorem alu_xor (a b : Reg) (s : State) : alu .xor a b s = .ok (s.setReg a (s.reg a ^^^ s.reg b)) := rfl

/-- Once both register operands are validated, a handler that raises nothing ends in the advance of what it left
(R51 to R53). -/
theorem conclude_withRegs_legal (s : State) (op : Byte) {a b : Byte} (k : Reg → Reg → Except EngineError State)
    {t : State} {ra rb : Reg} (ha : a.toNat = ra.val) (hb : b.toNat = rb.val) (hk : k ra rb = .ok t) :
    conclude s op (withRegs s a b k) = .next (t.advance op) := by
  rw [withRegs_legal s k ha hb, hk, conclude_ok]

/-- MUL with legal registers writes the product, then moves over its three bytes (R71). -/
theorem exec_mul_legal (s : State) {a b : Byte} {ra rb : Reg} (ha : a.toNat = ra.val) (hb : b.toNat = rb.val) :
    exec (.mul a b) s = .next ((s.setReg ra (s.reg ra * s.reg rb)).skip 3) := by
  rw [exec, execMul, conclude_withRegs_legal s opMul _ ha hb (alu_mul ra rb s), State.advance_mul]

/-- ADD with legal registers writes the sum, then moves over its three bytes (R70). -/
theorem exec_add_legal (s : State) {a b : Byte} {ra rb : Reg} (ha : a.toNat = ra.val) (hb : b.toNat = rb.val) :
    exec (.add a b) s = .next ((s.setReg ra (s.reg ra + s.reg rb)).skip 3) := by
  rw [exec, execAdd, conclude_withRegs_legal s opAdd _ ha hb (alu_add ra rb s), State.advance_add]

/-- Settles O18: the product of two bytes, as a byte, is the product of their values modulo 256. -/
theorem mulWritesTheProductModulo256 : Obligations.MulWritesTheProductModulo256 := by
  intro s ra rb a b ha hb
  rw [exec_mul_legal s ha hb, BitVec.mul_def]
  rfl

/-- Settles O19: the sum of two bytes, as a byte, is the sum of their values modulo 256. -/
theorem addWritesTheSumModulo256 : Obligations.AddWritesTheSumModulo256 := by
  intro s ra rb a b ha hb
  rw [exec_add_legal s ha hb, BitVec.add_def]
  rfl

/-- Settles O48: each operation writes the one value its equation names, and the library reads that value as a number
or bit by bit. -/
theorem aluArithmeticAndLogic : Obligations.AluArithmeticAndLogic := fun s a b =>
  ⟨⟨_, alu_add a b s, BitVec.toNat_add _ _⟩,
    ⟨_, alu_mul a b s, BitVec.toNat_mul _ _⟩,
    ⟨_, alu_and a b s, fun _ => BitVec.getLsbD_and⟩,
    ⟨_, alu_or a b s, fun _ => BitVec.getLsbD_or⟩,
    ⟨_, alu_xor a b s, fun _ => BitVec.getLsbD_xor⟩⟩

end Sys2Proof.Machine

/-! The stack pointer's updates, and PUSH and POP on a legal register operand (spec/43_stack.md). -/

namespace Sys2Proof.Machine

/-- What a register reads after the pointer's decrement: `x[7]` is the new pointer (R74, D18). -/
theorem State.reg_spDown (s : State) (q : Reg) : s.spDown.reg q = if q = 7 then s.sp - 1 else s.reg q :=
  State.reg_setReg s 7 q (s.sp - 1)

/-- The stack pointer after a register write: `x[7]` is the pointer itself (R6). -/
theorem State.sp_setReg (s : State) (r : Reg) (v : Byte) : (s.setReg r v).sp = if r = 7 then v else s.sp := by
  rw [State.sp, State.reg_setReg]
  exact if_congr eq_comm rfl rfl

/-- The pop's two writes, `x[r]` and then the pointer, leave every other register alone (R75). -/
theorem State.reg_spUp_setReg_other (s : State) {r q : Reg} (v : Byte) (hr : q ≠ r) (h7 : q ≠ 7) :
    (s.setReg r v).spUp.reg q = s.reg q := by
  rw [State.reg_spUp_other _ h7, State.reg_setReg_other s v hr]

/-- In any register but the pointer's own, the pop's increment leaves the value written (R75). -/
theorem State.reg_spUp_setReg_same (s : State) {r : Reg} (v : Byte) (h7 : r ≠ 7) :
    (s.setReg r v).spUp.reg r = v := by
  rw [State.reg_spUp_other _ h7, State.reg_setReg_same]

/-- After the pop's two writes the pointer is one above `x[7]` as the first write left it (R75, D18). -/
theorem State.sp_spUp_setReg (s : State) (r : Reg) (v : Byte) :
    (s.setReg r v).spUp.sp = (if r = 7 then v else s.sp) + 1 := by
  rw [State.sp_spUp, State.sp_setReg]

/-- PUSH of a legal register stores it, as read after the decrement, at the decremented pointer, then moves over its
two bytes (R76). -/
theorem exec_push_legal (s : State) {a : Byte} {r : Reg} (ha : a.toNat = r.val) :
    exec (.push a) s =
      .next (State.skip { s.spDown with mem := s.mem.write (s.sp - 1).toNat (s.spDown.reg r) } 2) := by
  rw [exec, execPush, withReg_legal s .a _ ha, pushWith_eq, conclude_ok, State.advance_push]

/-- POP into a legal register writes the cell at the pointer there, increments the pointer, then moves over its two
bytes (R77). -/
theorem exec_pop_legal (s : State) {a : Byte} {r : Reg} (ha : a.toNat = r.val) :
    exec (.pop a) s = .next ((s.setReg r (s.mem.read s.sp.toNat)).spUp.skip 2) := by
  rw [exec, execPop, withReg_legal s .a _ ha, popInto_eq, conclude_ok, State.advance_pop]

/-- Settles O20: the one write goes to the decremented pointer and stores the register as the decrement left it; a
write to canonical memory changes that cell alone. -/
theorem pushStoresTheRegister : Obligations.PushStoresTheRegister := by
  intro s r a hwf ha
  refine ⟨_, exec_push_legal s ha, s.sp_spDown, fun _ hq => s.reg_spDown_other hq, fun x => ?_, rfl, rfl, rfl, rfl⟩
  rw [← s.reg_spDown r]
  exact Memory.read_write hwf _ x _

/-- Settles O21: the registers follow from the order of the pop's two writes, `x[a]` first and the pointer second; no
other field but `pc` is written. -/
theorem popLoadsTheRegister : Obligations.PopLoadsTheRegister := by
  intro s r a ha
  exact ⟨_, exec_pop_legal s ha, s.reg_spUp_setReg_same _, s.sp_spUp_setReg r _,
    fun _ hr h7 => s.reg_spUp_setReg_other _ hr h7, rfl, rfl, rfl, rfl, rfl⟩

end Sys2Proof.Machine

/-! CALL, RET, JMP, JEQ and JNE on a legal register operand (spec/45_control_flow.md). -/

namespace Sys2Proof.Machine

/-- Wherever a fetch succeeds the return address `pc + 2` fits its byte (R83). -/
theorem State.returnAddress_toNat {s : State} (h : s.pc.toNat ≤ 253) : s.returnAddress.toNat = s.pc.toNat + 2 := by
  have hadd : (s.pc + 2).toNat = s.pc.toNat + 2 := s.skip_pc_toNat (n := 2) h (by decide)
  rw [State.returnAddress, BitVec.toNat_setWidth, hadd]
  exact Nat.mod_eq_of_lt (by omega)

/-- What the pop leaves in the register it pops into: in `x[7]` the pointer increment comes second (R75, D18). -/
theorem State.reg_spUp_setReg_self (s : State) (r : Reg) (v : Byte) :
    (s.setReg r v).spUp.reg r = if r = 7 then v + 1 else v := by
  split
  · subst r
    exact s.sp_spUp_setReg 7 v
  · exact s.reg_spUp_setReg_same v ‹_›

/-- A branch is one write of `pc` (R81, R82). -/
theorem branchIf_eq_setPc (c : Bool) (r : Reg) (s : State) :
    branchIf c r s = { s with pc := if c = true then (s.reg r).setWidth 9 else s.pc + 2 } := by
  cases c <;> rfl

/-- CALL with a legal register writes the return address at the decremented pointer, then jumps to the register as
read after that push (R83). -/
theorem exec_call_legal (s : State) {a : Byte} {r : Reg} (ha : a.toNat = r.val) :
    exec (.call a) s =
      .next (State.jump { s.spDown with mem := s.mem.write (s.sp - 1).toNat s.returnAddress } (s.spDown.reg r)) := by
  rw [exec, execCall, withReg_legal s .a _ ha, push_eq]
  rfl

/-- RET with a legal following byte pops into that register, then jumps to its value (R84). -/
theorem exec_ret_legal (s : State) {a : Byte} {r : Reg} (ha : a.toNat = r.val) :
    exec (.ret a) s =
      .next ((s.setReg r (s.mem.read s.sp.toNat)).spUp.jump ((s.setReg r (s.mem.read s.sp.toNat)).spUp.reg r)) := by
  rw [exec, execRet, withReg_legal s .a _ ha, popInto_eq]
  rfl

/-- JMP with a legal register jumps to its value (R80). -/
theorem exec_jmp_legal (s : State) {a : Byte} {r : Reg} (ha : a.toNat = r.val) :
    exec (.jmp a) s = .next (s.jump (s.reg r)) := by
  rw [exec, execJmp, conclude_withReg_legal s opJmp .a (fun q => s.jump (s.reg q)) ha, State.advance_jmp]

/-- JEQ with a legal register is the branch on `FL.E` (R81). -/
theorem exec_jeq_legal (s : State) {a : Byte} {r : Reg} (ha : a.toNat = r.val) :
    exec (.jeq a) s = .next (branchIf (flagE s.fl) r s) := by
  rw [exec, execJeq, conclude_withReg_legal s opJeq .a (fun q => branchIf (flagE s.fl) q s) ha, State.advance_jeq]

/-- JNE with a legal register is the branch on the complement of `FL.E` (R82). -/
theorem exec_jne_legal (s : State) {a : Byte} {r : Reg} (ha : a.toNat = r.val) :
    exec (.jne a) s = .next (branchIf (!flagE s.fl) r s) := by
  rw [exec, execJne, conclude_withReg_legal s opJne .a (fun q => branchIf (!flagE s.fl) q s) ha, State.advance_jne]

/-- Settles O22: the one write puts the return address, which fits its byte, at the decremented pointer of canonical
memory; the target is the register as the decrement left it. -/
theorem callPushesTheReturnAddress : Obligations.CallPushesTheReturnAddress := by
  intro s r a hwf hpc ha
  refine ⟨_, exec_call_legal s ha, ?target, s.sp_spDown, fun _ hq => s.reg_spDown_other hq, ?pushed,
    fun _ hx => Memory.read_write_other hwf _ hx, rfl, rfl, rfl⟩
  case target => rw [State.jump_pc, State.reg_spDown]
  case pushed =>
    rw [State.jump_mem, Memory.read_write_same hwf, State.returnAddress_toNat hpc]

/-- Settles O23: the registers follow from the order of the pop's two writes, `x[r]` first and the pointer second, and
`pc` from the value both leave in `x[r]`. -/
theorem retPopsThroughTheRegister : Obligations.RetPopsThroughTheRegister := by
  intro s rr r hr
  refine ⟨_, exec_ret_legal s hr, s.reg_spUp_setReg_same _, s.sp_spUp_setReg rr _, ?target,
    fun _ hq h7 => s.reg_spUp_setReg_other _ hq h7, rfl, rfl, rfl, rfl⟩
  case target => rw [State.jump_pc, State.reg_spUp_setReg_self]

/-- Settles O25: a jump writes `pc` alone. -/
theorem jmpGoesToTheRegister : Obligations.JmpGoesToTheRegister :=
  fun s _ _ ha => exec_jmp_legal s ha

/-- Settles O26: JEQ is the branch on `FL.E`, and a branch is one write of `pc`. -/
theorem jeqJumpsWhenEqual : Obligations.JeqJumpsWhenEqual := by
  intro s r a ha
  rw [exec_jeq_legal s ha, branchIf_eq_setPc]

/-- Settles O27: JNE branches on the complement of the bit JEQ branches on, so for either value of `FL.E` one of the
two branches is taken and the other is not. -/
theorem jneJumpsWhenNotEqual : Obligations.JneJumpsWhenNotEqual := by
  intro s r a ha
  rw [exec_jeq_legal s ha, exec_jne_legal s ha]
  cases flagE s.fl with
  | false => exact ⟨rfl, .inr ⟨rfl, rfl⟩⟩
  | true => exact ⟨rfl, .inl ⟨rfl, rfl⟩⟩

end Sys2Proof.Machine

/-! The error entry of an unknown opcode byte (spec/60_exceptions.md R87). -/

namespace Sys2Proof.Machine

/-- Where the latched opcode byte is none of the 13, the fetch succeeds and the decode answers DecodeError (R50). -/
theorem State.Latches.fetchDecode_unrecognised {s : State} {ir a b : Byte} (hl : s.Latches ir a b)
    (hir : ir ∉ recognisedOpcodes) : fetchDecode s = .error (.decodeError s.pc ir) := by
  obtain ⟨-, hpc, rfl, rfl, rfl⟩ := hl
  rw [fetchDecode_inRange hpc, decode_unrecognised hir]

/-- A RUNNING engine whose fetch or decode fails enters that error and does nothing more (R50). -/
theorem step_eq_raise {s : State} {e : EngineError} (hrun : s.status = .running)
    (he : fetchDecode s = .error e) : step s = .next (s.raise e) := by
  rw [step, State.takesStep, hrun, he]
  rfl

/-- Settles O9: the decode refuses the byte whatever the operand bytes, and error entry writes the status alone. -/
theorem unknownOpcodeRaisesDecodeError : Obligations.UnknownOpcodeRaisesDecodeError :=
  fun _ _ _ _ hl hir => step_eq_raise hl.running (hl.fetchDecode_unrecognised hir)

end Sys2Proof.Machine

/-! What the loader puts in memory, and the launch state (spec/10_state.md R22, spec/70_reset_and_hazards.md R105). -/

namespace Sys2Proof.Machine

/-- Inside the address space the host lays a byte by writing it, then goes on at the next address (R22). -/
theorem Memory.place_cons (m : Memory) {a : Nat} (ha : a < 256) (v : Byte) (l : List Byte) :
    m.place a (v :: l) = (m.write a v).place (a + 1) l := by
  rw [Memory.place, if_pos (show a < Config.memSize from ha)]

/-- Laying bytes from `a` on changes no cell below `a`. -/
theorem Memory.read_place_below {m : Memory} (hm : m.wf = true) {a x : Nat} {l : List Byte}
    (hl : a + l.length ≤ 256) (hx : x < a) : (m.place a l).read x = m.read x := by
  induction l generalizing m a with
  | nil => rfl
  | cons v rest ih =>
    rw [List.length_cons] at hl
    have ha : a < 256 := by omega
    rw [Memory.place_cons m ha, ih (Memory.wf_write hm ha) (by omega) (by omega),
      Memory.read_write_other hm v (by omega)]

/-- At offset `i` from `a` stands byte `i` of the bytes laid there, and past the last one what stood there before. -/
theorem Memory.read_place_offset {m : Memory} (hm : m.wf = true) {a : Nat} {l : List Byte}
    (hl : a + l.length ≤ 256) (i : Nat) : (m.place a l).read (a + i) = l.getD i (m.read (a + i)) := by
  induction l generalizing m a i with
  | nil => rfl
  | cons v rest ih =>
    rw [List.length_cons] at hl
    have ha : a < 256 := by omega
    have hw : (m.write a v).wf = true := Memory.wf_write hm ha
    have hrest : a + 1 + rest.length ≤ 256 := by omega
    rw [Memory.place_cons m ha]
    cases i with
    | zero => exact (Memory.read_place_below hw hrest (Nat.lt_succ_self a)).trans (Memory.read_write_same hm a v)
    | succ j =>
      have hoff : a + (j + 1) = a + 1 + j := by omega
      rw [hoff, ih hw hrest j, Memory.read_write_other hm v (by omega), List.getD_cons_succ]

/-- The loader replaces the first cells by the image and no other (R22). -/
theorem State.read_load {s : State} (hs : s.mem.wf = true) {image : List Byte} (hl : image.length ≤ 256) (x : Nat) :
    (s.load image).mem.read x = image.getD x (s.mem.read x) := by
  have h := Memory.read_place_offset hs (a := 0) ((Nat.zero_add _).trans_le hl) x
  rwa [Nat.zero_add] at h

/-- An image that fits memory launches from reset with the image loaded (R105). -/
theorem launch_eq_some {image : List Byte} (h : image.length ≤ 256) :
    launch image = some (State.reset.load image) := if_pos h

/-- With nothing loaded, reset latches three zero bytes (R105). -/
theorem reset_latches : State.reset.Latches 0x00 0x00 0x00 := ⟨rfl, by decide, rfl, rfl, rfl⟩

/-- Settles O36: loading replaces the first cells of reset's memory, which reads as zero, and no other field; the
empty image leaves the opcode byte 0x00, which is none of the 13. -/
theorem launchStateHoldsTheImage : Obligations.LaunchStateHoldsTheImage :=
  ⟨fun _ hl => ⟨_, launch_eq_some hl, State.read_load State.reset_mem_wf hl, rfl, rfl, rfl, rfl, rfl⟩,
    State.reset, rfl, unknownOpcodeRaisesDecodeError _ _ _ _ reset_latches (by decide)⟩

end Sys2Proof.Machine

/-! Decode and encode in both directions (spec/30_encoding.md R38 to R43). -/

namespace Sys2Proof

/-- The bytes of an instruction, with RET's following byte, decode to it, whatever comes after (R40). -/
theorem decodeBytes_encode (i : Instr) (x y : Byte) :
    decodeBytes (encode i ++ i.following ++ [x, y]) = .ok i := by
  cases i <;> rfl

/-- Each of the 13 opcode bytes decodes, and the latches begin with the bytes of the instruction (R42). -/
theorem decode_recognised {ir : Byte} (h : ir ∈ recognisedOpcodes) (a b : Byte) :
    ∃ i rest, decode ir a b = .ok i ∧ [ir, a, b] = encode i ++ i.following ++ rest := by
  simp only [recognisedOpcodes, List.mem_cons, List.not_mem_nil, or_false] at h
  rcases h with rfl | rfl | rfl | rfl | rfl | rfl | rfl | rfl | rfl | rfl | rfl | rfl | rfl <;>
    exact ⟨_, _, rfl, rfl⟩

/-- A byte that decodes is one of the 13 (R43). -/
theorem recognised_of_decode {ir a b : Byte} {i : Instr} (h : decode ir a b = .ok i) : ir ∈ recognisedOpcodes := by
  by_contra hir
  rw [decode_unrecognised hir] at h
  cases h

/-- The latches that decode begin with the bytes of the instruction (R40). -/
theorem encode_begins_latches {ir a b : Byte} {i : Instr} (h : decode ir a b = .ok i) :
    ∃ rest, [ir, a, b] = encode i ++ i.following ++ rest := by
  obtain ⟨j, rest, hj, hbytes⟩ := decode_recognised (recognised_of_decode h) a b
  obtain rfl : i = j := Except.ok.inj (h.symm.trans hj)
  exact ⟨rest, hbytes⟩

/-- The decoder refuses exactly the bytes outside the 13 (R43). -/
theorem decode_eq_unknownOpcode_iff (ir a b : Byte) :
    decode ir a b = .error (.unknownOpcode ir) ↔ ir ∉ recognisedOpcodes := by
  refine ⟨fun h hir => ?_, fun hir => decode_unrecognised hir a b⟩
  obtain ⟨i, -, hi, -⟩ := decode_recognised hir a b
  rw [hi] at h
  cases h

/-- Settles O1: decoding inverts encoding by the opcode's row; conversely a byte that decodes is one of the 13, and
each row of the table begins with the bytes of its instruction. -/
theorem decodeAndEncodeAgree : Obligations.DecodeAndEncodeAgree :=
  ⟨decodeBytes_encode, fun _ _ _ _ => encode_begins_latches, decode_eq_unknownOpcode_iff⟩

/-- Settles O3: each word is closed, and evaluating the table gives its row. -/
theorem wordsDecodeAsTheTableSays : Obligations.WordsDecodeAsTheTableSays := by
  unfold Obligations.WordsDecodeAsTheTableSays
  decide

/-- The operand bytes used as register indices are the first latches, in order (R41, R84). -/
theorem registerBytes_begin_latches {ir a b : Byte} {i : Instr} (h : decode ir a b = .ok i) :
    i.registerBytes <+: [a, b] := by
  obtain ⟨rest, hbytes⟩ := encode_begins_latches h
  cases i <;> cases hbytes <;> simp [Instr.registerBytes]

/-- Only MUL, ADD and CMP use two register operands (R42). -/
theorem opcode_of_two_registerBytes {i : Instr} {a b : Byte} (h : i.registerBytes = [a, b]) :
    i.opcode ∈ [0xA2#8, 0xA0#8, 0xA7#8] := by
  cases i with
  | mul | add | cmp => simp [Instr.opcode, opMul, opAdd, opCmp]
  | hlt | ldi | prn | push | pop | call | ret | jmp | jeq | jne => cases h

end Sys2Proof

/-! What the fetch and the decode phases answer, and the step of a stopped engine (spec/40_engine_cycle.md R48 to
R50). -/

namespace Sys2Proof.Machine

/-- The first of the three reads above address 255 decides the error: it is the one at 256, or at `pc` where that
is higher (R49, R89). -/
theorem fetch_above {s : State} (h : 254 ≤ s.pc.toNat) :
    fetch s = .error (.memoryRange s.pc (max s.pc.toNat 256)) := by
  rcases (by omega : s.pc.toNat = 254 ∨ s.pc.toNat = 255 ∨ 256 ≤ s.pc.toNat) with hpc | hpc | hpc
  · simp [fetch, hpc]
  · simp [fetch, hpc]
  · simp [fetch, hpc]

/-- What a successful fetch latches (R49). -/
theorem fetch_ok {s : State} {ir a b : Byte} (h : fetch s = .ok (ir, a, b)) :
    s.pc.toNat ≤ 253 ∧ s.mem.read s.pc.toNat = ir ∧ s.mem.read (s.pc.toNat + 1) = a ∧
      s.mem.read (s.pc.toNat + 2) = b := by
  by_cases hpc : s.pc.toNat ≤ 253
  · rw [fetch_inRange hpc] at h
    cases h
    exact ⟨hpc, rfl, rfl, rfl⟩
  · rw [fetch_above (by omega)] at h
    cases h

/-- A failed fetch is the error of the step's fetch and decode (R54). -/
theorem fetchDecode_of_fetch_error {s : State} {e : EngineError} (h : fetch s = .error e) :
    fetchDecode s = .error e := by
  rw [fetchDecode, h]

/-- An instruction is dispatched only from three latches that decode to it (R49, R50). -/
theorem fetchDecode_ok {s : State} {i : Instr} (h : fetchDecode s = .ok i) :
    s.pc.toNat ≤ 253 ∧
      decode (s.mem.read s.pc.toNat) (s.mem.read (s.pc.toNat + 1)) (s.mem.read (s.pc.toNat + 2)) = .ok i := by
  by_cases hpc : s.pc.toNat ≤ 253
  · rw [fetchDecode_inRange hpc] at h
    split at h
    · rename_i j hj
      cases h
      exact ⟨hpc, hj⟩
    · cases h
  · rw [fetchDecode_of_fetch_error (fetch_above (by omega))] at h
    cases h

/-- The two errors of the fetch and decode phases (R49, R50). -/
theorem fetchDecode_error {s : State} {e : EngineError} (h : fetchDecode s = .error e) :
    (254 ≤ s.pc.toNat ∧ e = .memoryRange s.pc (max s.pc.toNat 256)) ∨
      (s.pc.toNat ≤ 253 ∧ s.mem.read s.pc.toNat ∉ recognisedOpcodes ∧
        e = .decodeError s.pc (s.mem.read s.pc.toNat)) := by
  by_cases hpc : s.pc.toNat ≤ 253
  · refine .inr ⟨hpc, fun hir => ?_, ?_⟩
    · obtain ⟨i, -, hi, -⟩ := decode_recognised hir (s.mem.read (s.pc.toNat + 1)) (s.mem.read (s.pc.toNat + 2))
      rw [fetchDecode_inRange hpc, hi] at h
      cases h
    · rw [fetchDecode_inRange hpc] at h
      split at h <;> cases h
      rfl
  · rw [fetchDecode_of_fetch_error (fetch_above (by omega))] at h
    cases h
    exact .inl ⟨by omega, rfl⟩

/-- Where fetch and decode succeed, the step is the dispatched instruction (R52). -/
theorem step_eq_exec {s : State} {i : Instr} (hrun : s.status = .running) (hi : fetchDecode s = .ok i) :
    step s = exec i s := by
  rw [step, State.takesStep, hrun, hi]
  rfl

/-- A stopped engine takes no step (R48, D27). -/
theorem step_of_not_running {s : State} (h : s.status ≠ .running) : step s = .next s := by
  rw [step, State.takesStep, decide_eq_false h]
  rfl

/-- Settles O4: this is the dispatch of the latches. -/
theorem stepRunsTheDecodedInstruction : Obligations.StepRunsTheDecodedInstruction :=
  fun _ _ _ _ _ hl hd => hl.step_eq_exec hd

/-- The latches read from the bytes of an instruction decode to it (R27, R50). -/
theorem decode_of_encoded {i : Instr} {cell : Nat → Byte}
    (h : ∀ (k : Nat) (v : Byte), (encode i ++ i.following)[k]? = some v → cell k = v) :
    decode (cell 0) (cell 1) (cell 2) = .ok i := by
  have h0 : cell 0 = i.opcode := h 0 _ rfl
  cases i with
  | hlt => rw [h0]; rfl
  | prn | push | pop | call | ret | jmp | jeq | jne => rw [h0, h 1 _ rfl]; rfl
  | ldi | mul | add | cmp => rw [h0, h 1 _ rfl, h 2 _ rfl]; rfl

/-- Settles O5: the three latches are those bytes and what follows them, which decode to the instruction. -/
theorem stepRunsTheEncodedInstruction : Obligations.StepRunsTheEncodedInstruction := by
  intro s i hrun hpc hbytes
  have hl : s.Latches _ _ _ := ⟨hrun, hpc, rfl, rfl, rfl⟩
  exact hl.step_eq_exec (decode_of_encoded (cell := fun k => s.mem.read (s.pc.toNat + k)) hbytes)

/-- Settles O6: the step tests the status first. -/
theorem stoppedEngineTakesNoStep : Obligations.StoppedEngineTakesNoStep :=
  fun _ => step_of_not_running

/-- Settles O8: the fetch fails, and error entry writes the status alone. -/
theorem fetchPastMemoryRaisesRangeError : Obligations.FetchPastMemoryRaisesRangeError :=
  fun _ hrun hpc => step_eq_raise hrun (fetchDecode_of_fetch_error (fetch_above hpc))

/-! ### Runs -/

/-- A run from a state that steps goes on from the next state. -/
theorem run_succ {s t : State} (h : step s = .next t) (k : Nat) : core.run (k + 1) s = core.run k t := by
  simp only [Host.Core.run, Host.Check.core_step, h]

/-- A state that steps to itself is the end of every run from it. -/
theorem run_of_step_self {s : State} (h : step s = .next s) (k : Nat) : core.run k s = .next s := by
  induction k with
  | zero => rfl
  | succ k ih => rw [run_succ h, ih]

/-- What every step keeps, every run keeps. -/
theorem run_keeps {P : State → Prop} (hstep : ∀ s t, P s → step s = .next t → P t) {k : Nat} {s t : State}
    (hs : P s) (h : core.run k s = .next t) : P t := by
  induction k generalizing s with
  | zero => cases h; exact hs
  | succ k ih =>
    simp only [Host.Core.run, Host.Check.core_step] at h
    split at h
    · exact ih (hstep _ _ hs ‹_›) h
    · cases h
    · cases h

/-- Settles O7: a stopped engine steps to itself, so it is where every run from it ends. -/
theorem stoppedEngineNeverLeaves : Obligations.StoppedEngineNeverLeaves :=
  fun k _ h => run_of_step_self (step_of_not_running h) k

/-! ### Every step answers a next state -/

theorem conclude_answers (s : State) (op : Byte) (handler : Except EngineError State) :
    ∃ t, conclude s op handler = .next t := by
  cases handler with
  | ok s' => exact ⟨_, rfl⟩
  | error e => exact ⟨_, rfl⟩

/-- Every meaning ends in `conclude` (R54). -/
theorem exec_eq_conclude (i : Instr) (s : State) : ∃ handler, exec i s = conclude s i.opcode handler := by
  cases i
  all_goals
    simp only [exec, execHlt, execLdi, execPrn, execMul, execAdd, execPush, execPop, execCall, execRet, execCmp,
      execJmp, execJeq, execJne]
    exact ⟨_, rfl⟩

theorem exec_answers (i : Instr) (s : State) : ∃ t, exec i s = .next t := by
  obtain ⟨handler, h⟩ := exec_eq_conclude i s
  rw [h]
  exact conclude_answers s i.opcode handler

/-- Settles O14: error entry and the stopped engine answer a next state, and so does every meaning. -/
theorem stepAlwaysAnswersANextState : Obligations.StepAlwaysAnswersANextState := by
  intro s
  by_cases hrun : s.status = .running
  · cases hfd : fetchDecode s with
    | ok i => rw [step_eq_exec hrun hfd]; exact exec_answers i s
    | error e => exact ⟨_, step_eq_raise hrun hfd⟩
  · exact ⟨s, step_of_not_running hrun⟩

end Sys2Proof.Machine

/-! HLT, CMP, the refusal of an illegal register operand, and with them the converse of `exec_effect`
(spec/40_engine_cycle.md R51 to R55, spec/44_compare_flags.md R79). -/

namespace Sys2Proof.Machine

/-- Settles O15: halting and the move of `pc` over the one byte are the two fields that change. -/
theorem hltHaltsOnePastItself : Obligations.HltHaltsOnePastItself := fun _ => rfl

/-- CMP with legal registers writes `FL` whole, then moves over its three bytes (R79). -/
theorem exec_cmp_legal (s : State) {a b : Byte} {ra rb : Reg} (ha : a.toNat = ra.val) (hb : b.toNat = rb.val) :
    exec (.cmp a b) s = .next ((s.setFlags (compareFlags (s.reg ra) (s.reg rb))).skip 3) := by
  rw [exec, execCmp, conclude_withRegs_legal s opCmp _ ha hb rfl, State.advance_cmp]

/-- Two bytes compare equal, greater or less (R79). -/
theorem compareFlags_cases (x y : Byte) :
    (x = y ∧ compareFlags x y = 0x01) ∨ (y.toNat < x.toNat ∧ compareFlags x y = 0x02) ∨
      (x.toNat < y.toNat ∧ compareFlags x y = 0x04) := by
  rcases Nat.lt_trichotomy x.toNat y.toNat with h | h | h
  · exact .inr (.inr ⟨h, by rw [compareFlags, if_neg (by omega), if_neg (by omega)]⟩)
  · exact .inl ⟨BitVec.eq_of_toNat_eq h, by rw [compareFlags, if_pos h]⟩
  · exact .inr (.inl ⟨h, by rw [compareFlags, if_neg (by omega), if_pos h]⟩)

/-- Settles O24: in each of the three outcomes of the comparison the byte written is a literal, whose bits are read
off, and the other two outcomes are excluded. -/
theorem cmpRecordsTheUnsignedComparison : Obligations.CmpRecordsTheUnsignedComparison := by
  intro s ra rb a b ha hb
  refine ⟨_, exec_cmp_legal s ha hb, ?_⟩
  rcases compareFlags_cases (s.reg ra) (s.reg rb) with ⟨h, hf⟩ | ⟨h, hf⟩ | ⟨h, hf⟩
  · rw [hf, h]
    simp [flagE, flagG, flagL]
  · have hne : s.reg ra ≠ s.reg rb := fun he => h.ne' (congrArg BitVec.toNat he)
    simp [hf, flagE, flagG, flagL, hne, h, h.le]
  · have hne : s.reg ra ≠ s.reg rb := fun he => h.ne (congrArg BitVec.toNat he)
    simp [hf, flagE, flagG, flagL, hne, h, h.le]

/-- A second operand byte above 7 is refused where the first is legal (R51). -/
theorem withRegs_illegal_b (s : State) {a b : Byte} (k : Reg → Reg → Except EngineError State) (ha : a.toNat ≤ 7)
    (hb : 7 < b.toNat) : withRegs s a b k = .error (.registerRange s.pc .b b) := by
  rw [withRegs, withReg_legal s .a _ (r := ⟨a.toNat, by omega⟩) rfl, withReg_illegal s .b _ hb]

/-- An illegal first register operand raises, whatever the instruction (R51, D4). -/
theorem exec_illegal_a (s : State) {i : Instr} {a : Byte} (hi : i.registerBytes.head? = some a) (h : 7 < a.toNat) :
    exec i s = .next (s.raise (.registerRange s.pc .a a)) := by
  cases i with
  | hlt => cases hi
  | ldi | prn | mul | add | push | pop | call | ret | cmp | jmp | jeq | jne =>
    cases hi
    exact congrArg (conclude s _) (withReg_illegal s .a _ h)

/-- An illegal second register operand raises where the first is legal (R51, D29). -/
theorem exec_illegal_b (s : State) {i : Instr} {a b : Byte} (hi : i.registerBytes = [a, b]) (ha : a.toNat ≤ 7)
    (hb : 7 < b.toNat) : exec i s = .next (s.raise (.registerRange s.pc .b b)) := by
  cases i with
  | mul | add | cmp =>
    cases hi
    exact congrArg (conclude s _) (withRegs_illegal_b s _ ha hb)
  | hlt | ldi | prn | push | pop | call | ret | jmp | jeq | jne => cases hi

/-- Settles O10: in each of the twelve `a` is the first register operand, and in the last three `b` the second. -/
theorem registerOperandAboveSevenRaises : Obligations.RegisterOperandAboveSevenRaises :=
  ⟨fun s a _ h =>
    have raises {i : Instr} (hi : i.registerBytes.head? = some a) := exec_illegal_a s hi h
    ⟨raises rfl, raises rfl, raises rfl, raises rfl, raises rfl, raises rfl, raises rfl, raises rfl, raises rfl,
      raises rfl, raises rfl, raises rfl⟩,
    fun s _ _ ha hb => ⟨exec_illegal_b s rfl ha hb, exec_illegal_b s rfl ha hb, exec_illegal_b s rfl ha hb⟩⟩

/-- The converse of `exec_effect`: the effect of an instruction is what `exec` answers. -/
theorem Effect.exec_eq {s t : State} {i : Instr} (h : Effect s i t) : exec i s = .next t := by
  cases h with
  | hlt => rfl
  | ldi ha => exact exec_ldi_legal s _ ha
  | prn ha => exact exec_prn_legal s ha
  | mul ha hb => exact exec_mul_legal s ha hb
  | add ha hb => exact exec_add_legal s ha hb
  | push ha => exact exec_push_legal s ha
  | pop ha => exact exec_pop_legal s ha
  | call ha => exact exec_call_legal s ha
  | ret ha => exact exec_ret_legal s ha
  | cmp ha hb => exact exec_cmp_legal s ha hb
  | jmp ha => exact exec_jmp_legal s ha
  | jeq ha => exact exec_jeq_legal s ha
  | jne ha => exact exec_jne_legal s ha
  | illegalA hi ha => exact exec_illegal_a s hi ha
  | illegalB hi ha hb => exact exec_illegal_b s hi ha hb

end Sys2Proof.Machine

/-! What an effect and a step leave alone, field by field, over all instructions (spec/10_state.md R7, R12, R15,
spec/20_memory.md R26, spec/60_exceptions.md R93). -/

namespace Sys2Proof.Machine

/-! ### Branches -/

section Branch

variable (c : Bool) (r q : Reg) (s : State)

@[simp] theorem branchIf_mem : (branchIf c r s).mem = s.mem := by cases c <;> rfl
@[simp] theorem branchIf_reg : (branchIf c r s).reg q = s.reg q := by cases c <;> rfl
@[simp] theorem branchIf_fl : (branchIf c r s).fl = s.fl := by cases c <;> rfl
@[simp] theorem branchIf_status : (branchIf c r s).status = s.status := by cases c <;> rfl
@[simp] theorem branchIf_out : (branchIf c r s).out = s.out := by cases c <;> rfl

end Branch

/-! ### Registers -/

/-- The register an operand byte selects is not one whose number differs from the byte. -/
theorem reg_ne_of_toNat_ne {v : Byte} {q r : Reg} (hv : v.toNat = r.val) (h : q.val ≠ v.toNat) : q ≠ r := by
  rintro rfl
  exact h hv.symm

theorem reg_ne_sp {q : Reg} (h : q.val ≠ 7) : q ≠ 7 := by
  rintro rfl
  exact h rfl

/-- An effect leaves every register outside the "written" column as it was (R7). -/
theorem Effect.reg_unlisted {s t : State} {i : Instr} {q : Reg} (h : Effect s i t) (hq : q.val ∉ i.regsWritten) :
    t.reg q = s.reg q := by
  cases h with
  | hlt | prn | cmp | jmp | illegalA | illegalB => rfl
  | jeq | jne => exact branchIf_reg _ _ q s
  | ldi ha | mul ha | add ha =>
    exact State.reg_setReg_other s _ (reg_ne_of_toNat_ne ha (by simpa [Instr.regsWritten] using hq))
  | push | call => exact s.reg_spDown_other (reg_ne_sp (by simpa [Instr.regsWritten] using hq))
  | pop ha | ret ha =>
    simp only [Instr.regsWritten, List.mem_cons, List.not_mem_nil, or_false, not_or] at hq
    exact s.reg_spUp_setReg_other _ (reg_ne_of_toNat_ne ha hq.1) (reg_ne_sp hq.2)

/-- Settles O28: by the effect of each instruction, errors included. -/
theorem onlyListedRegistersChange : Obligations.OnlyListedRegistersChange :=
  fun _ _ _ _ h hq => (exec_effect h).reg_unlisted hq

/-! ### Flags, memory, output, status -/

/-- An effect leaves `FL` alone, or is CMP's comparison (R12). -/
theorem Effect.fl_cases {s t : State} {i : Instr} (h : Effect s i t) :
    t.fl = s.fl ∨ ∃ a b x y, i = .cmp a b ∧ t.fl = compareFlags x y := by
  cases h with
  | cmp => exact .inr ⟨_, _, _, _, rfl, rfl⟩
  | jeq | jne => exact .inl (branchIf_fl _ _ s)
  | hlt | ldi | prn | mul | add | push | pop | call | ret | jmp | illegalA | illegalB => exact .inl rfl

/-- An effect leaves memory alone, or is the push of PUSH or CALL (R26). -/
theorem Effect.mem_cases {s t : State} {i : Instr} (h : Effect s i t) :
    t.mem = s.mem ∨ (∃ a, i = .push a ∨ i = .call a) ∧ ∃ v, t.mem = s.mem.write (s.sp - 1).toNat v := by
  cases h with
  | push => exact .inr ⟨⟨_, .inl rfl⟩, _, rfl⟩
  | call => exact .inr ⟨⟨_, .inr rfl⟩, _, rfl⟩
  | jeq | jne => exact .inl (branchIf_mem _ _ s)
  | hlt | ldi | prn | mul | add | pop | ret | cmp | jmp | illegalA | illegalB => exact .inl rfl

/-- An effect leaves the output alone, or is PRN's emission (R15). -/
theorem Effect.out_cases {s t : State} {i : Instr} (h : Effect s i t) :
    t.out = s.out ∨ ∃ (a : Byte) (r : Reg), i = .prn a ∧ a.toNat = r.val ∧ t.out = s.out ++ [s.reg r] := by
  cases h with
  | prn ha => exact .inr ⟨_, _, rfl, ha, rfl⟩
  | jeq | jne => exact .inl (branchIf_out _ _ s)
  | hlt | ldi | mul | add | push | pop | call | ret | cmp | jmp | illegalA | illegalB => exact .inl rfl

/-- An effect leaves the status alone, or halts, or is error entry for a register operand (R54, R55). -/
theorem Effect.status_cases {s t : State} {i : Instr} (h : Effect s i t) :
    t.status = s.status ∨ (i = .hlt ∧ t = s.halt.skip 1) ∨ ∃ w v, t = s.raise (.registerRange s.pc w v) := by
  cases h with
  | hlt => exact .inr (.inl ⟨rfl, rfl⟩)
  | illegalA | illegalB => exact .inr (.inr ⟨_, _, rfl⟩)
  | jeq | jne => exact .inl (branchIf_status _ _ s)
  | ldi | prn | mul | add | push | pop | call | ret | cmp | jmp => exact .inl rfl

/-- A step changes nothing but perhaps the status, or has the effect of the instruction dispatched. -/
theorem step_frame_or_effect {s t : State} (h : step s = .next t) :
    (∃ st, t = { s with status := st }) ∨ ∃ i, fetchDecode s = .ok i ∧ Effect s i t := by
  rcases step_cases h with ⟨-, rfl⟩ | ⟨-, e, -, rfl⟩ | ⟨-, i, hi, hexec⟩
  · exact .inl ⟨_, rfl⟩
  · exact .inl ⟨_, rfl⟩
  · exact .inr ⟨i, hi, exec_effect hexec⟩

/-- Settles O30: of the effects CMP's alone writes `FL`. -/
theorem onlyCmpChangesTheFlags : Obligations.OnlyCmpChangesTheFlags := by
  intro s t h hfl
  rcases step_frame_or_effect h with ⟨st, rfl⟩ | ⟨i, hi, heff⟩
  · exact absurd rfl hfl
  · rcases heff.fl_cases with hsame | ⟨a, b, -, -, rfl, -⟩
    · exact absurd hsame hfl
    · exact ⟨a, b, hi⟩

/-- Settles O32: of the effects the two pushes alone write memory, and a write to canonical memory changes only the
cell written. -/
theorem onlyPushAndCallChangeMemory : Obligations.OnlyPushAndCallChangeMemory := by
  intro s t x hwf h hx
  rcases step_frame_or_effect h with ⟨st, rfl⟩ | ⟨i, hi, heff⟩
  · exact absurd rfl hx
  · rcases heff.mem_cases with hsame | ⟨⟨a, hpush⟩, v, hmem⟩
    · exact absurd (by rw [hsame]) hx
    · refine ⟨⟨a, ?_⟩, ?_⟩
      · rcases hpush with rfl | rfl
        · exact .inl hi
        · exact .inr hi
      · by_contra hne
        exact hx (by rw [hmem, Memory.read_write_other hwf v hne])

/-- Settles O33: of the effects PRN's alone appends to the output. -/
theorem outputGrowsOnlyByPrn : Obligations.OutputGrowsOnlyByPrn := by
  refine ⟨rfl, fun s t h => ?_⟩
  rcases step_frame_or_effect h with ⟨st, rfl⟩ | ⟨i, hi, heff⟩
  · exact .inl rfl
  · rcases heff.out_cases with hsame | ⟨a, r, rfl, ha, hout⟩
    · exact .inl hsame
    · exact .inr ⟨a, r, hi, ha, hout⟩

/-! ### Errors and HALTED -/

/-- The error of the fetch or the decode records the step's `pc` (R54). -/
theorem fetchDecode_error_pc {s : State} {e : EngineError} (h : fetchDecode s = .error e) : e.pc = s.pc := by
  rcases fetchDecode_error h with ⟨-, rfl⟩ | ⟨-, -, rfl⟩ <;> rfl

/-- Error entry changes the status alone, so it is read off the status it leaves (R93). -/
theorem raise_precise {s : State} {e e' : EngineError} (hpc : e'.pc = s.pc)
    (h : (s.raise e').status = .faulted e) : s.raise e' = { s with status := .faulted e } ∧ e.pc = s.pc := by
  obtain rfl : e' = e := Status.faulted.inj h
  exact ⟨rfl, hpc⟩

/-- Settles O11: an error of the fetch, the decode or the operand check is error entry with the step's `pc`, and no
other effect faults a RUNNING engine. -/
theorem errorsArePrecise : Obligations.ErrorsArePrecise := by
  intro s t e hrun h hst
  rcases step_cases h with ⟨hstop, -⟩ | ⟨-, e', he', rfl⟩ | ⟨-, i, -, hexec⟩
  · exact absurd hrun hstop
  · exact raise_precise (fetchDecode_error_pc he') hst
  · rcases (exec_effect hexec).status_cases with hsame | ⟨-, rfl⟩ | ⟨w, v, rfl⟩
    · rw [hsame, hrun] at hst
      cases hst
    · cases hst
    · exact raise_precise rfl hst

/-- A step that halts a RUNNING engine runs HLT, and leaves `pc` one past it (R55). -/
theorem step_halted {s t : State} (hrun : s.status = .running) (h : step s = .next t) (hst : t.status = .halted) :
    fetchDecode s = .ok .hlt ∧ t = s.halt.skip 1 := by
  rcases step_cases h with ⟨hstop, -⟩ | ⟨-, e, -, rfl⟩ | ⟨-, i, hi, hexec⟩
  · exact absurd hrun hstop
  · cases hst
  · rcases (exec_effect hexec).status_cases with hsame | ⟨rfl, ht⟩ | ⟨w, v, rfl⟩
    · rw [hsame, hrun] at hst
      cases hst
    · exact ⟨hi, ht⟩
    · cases hst

/-- HLT is dispatched exactly where its opcode byte is fetched (R42, R49). -/
theorem fetchDecode_hlt_iff {s : State} :
    fetchDecode s = .ok .hlt ↔ s.pc.toNat ≤ 253 ∧ s.mem.read s.pc.toNat = 0x01#8 := by
  constructor
  · intro h
    obtain ⟨hpc, hd⟩ := fetchDecode_ok h
    exact ⟨hpc, (decode_opcode hd).symm⟩
  · rintro ⟨hpc, hir⟩
    rw [fetchDecode_inRange hpc, hir]
    rfl

/-- Settles O12: the effect of no other instruction is HALTED, and HLT's is. -/
theorem onlyHltReachesHalted : Obligations.OnlyHltReachesHalted := by
  intro s t hrun h
  rw [← fetchDecode_hlt_iff]
  refine ⟨fun hst => (step_halted hrun h hst).1, fun hfd => ?_⟩
  rw [step_eq_exec hrun hfd] at h
  cases h
  rfl

end Sys2Proof.Machine

/-! The engine's invariant: at reset, at launch, and kept by every step (spec/10_state.md sections 3 to 9,
spec/60_exceptions.md sections 1 to 3). -/

namespace Sys2Proof.Machine

/-! ### The clauses, over all effects -/

/-- An effect keeps memory canonical (R24). -/
theorem Effect.keeps_memWf {s t : State} {i : Instr} (h : Effect s i t) (hwf : s.mem.wf = true) :
    t.mem.wf = true := by
  rcases h.mem_cases with hsame | ⟨-, v, hmem⟩
  · rw [hsame]
    exact hwf
  · rw [hmem]
    exact Memory.wf_write hwf (byte_inRange _)

/-- From where a fetch succeeds, a move of `pc` over at most three bytes stays in 0..256 (R8). -/
theorem State.skip_pc_le (s : State) {n : Nat} (h : s.pc.toNat ≤ 253) (hn : n ≤ 3) : (s.skip n).pc.toNat ≤ 256 := by
  rw [s.skip_pc_toNat h hn]
  omega

/-- A transfer goes to an address of memory (R85). -/
theorem State.jump_pc_le (s : State) (v : Byte) : (s.jump v).pc.toNat ≤ 256 := by
  rw [s.jump_pc_toNat v]
  exact v.isLt.le

theorem branchIf_pc_le {s : State} (c : Bool) (r : Reg) (h : s.pc.toNat ≤ 253) : (branchIf c r s).pc.toNat ≤ 256 := by
  cases c with
  | true => exact s.jump_pc_le _
  | false => exact s.skip_pc_le h (by omega)

/-- An effect leaves `pc` in 0..256 (R8). -/
theorem Effect.pc_le {s t : State} {i : Instr} (h : Effect s i t) (hpc : s.pc.toNat ≤ 253) : t.pc.toNat ≤ 256 := by
  cases h with
  | hlt | ldi | prn | mul | add | push | pop | cmp => exact State.skip_pc_le _ hpc (by omega)
  | call | ret | jmp => exact State.jump_pc_le _ _
  | jeq | jne => exact branchIf_pc_le _ _ hpc
  | illegalA | illegalB => exact hpc.trans (by omega)

/-- An effect leaves `FL` one of its four values (R11). -/
theorem Effect.keeps_flLegal {s t : State} {i : Instr} (h : Effect s i t)
    (hfl : s.fl ∈ [0x00#8, 0x01#8, 0x02#8, 0x04#8]) : t.fl ∈ [0x00#8, 0x01#8, 0x02#8, 0x04#8] := by
  rcases h.fl_cases with hsame | ⟨-, -, x, y, -, hcmp⟩
  · rw [hsame]
    exact hfl
  · rw [hcmp]
    rcases compareFlags_cases x y with ⟨-, hf⟩ | ⟨-, hf⟩ | ⟨-, hf⟩ <;> rw [hf] <;> decide

/-! ### The status -/

/-- RUNNING says nothing about the rest of the state (R13). -/
theorem State.statusJustified_of_running {s : State} (h : s.status = .running) : s.StatusJustified := by
  simp only [State.StatusJustified, h]

/-- Error entry moves nothing an error's justification speaks of (R93). -/
theorem State.statusJustified_raise {s : State} {e : EngineError} (h : e.JustifiedAt s) :
    (s.raise e).StatusJustified := by
  cases e with
  | registerRange pc w v => cases w <;> exact h
  | decodeError | aluError | memoryRange => exact h

/-- The error of the fetch or the decode is the one the bytes at `pc` cause (R87, R89). -/
theorem fetchDecode_error_justified {s : State} {e : EngineError} (hpc : s.pc.toNat ≤ 256)
    (h : fetchDecode s = .error e) : e.JustifiedAt s := by
  rcases fetchDecode_error h with ⟨habove, rfl⟩ | ⟨hin, hir, rfl⟩
  · exact ⟨rfl, habove, Nat.max_eq_right hpc⟩
  · exact ⟨rfl, hin, rfl, hir⟩

/-- An illegal first operand byte is the byte after a recognised opcode (R90). -/
theorem registerRange_a_justified {s : State} {i : Instr} {a : Byte} (hfd : fetchDecode s = .ok i)
    (hi : i.registerBytes.head? = some a) (ha : 7 < a.toNat) :
    EngineError.JustifiedAt s (.registerRange s.pc .a a) := by
  obtain ⟨hpc, hd⟩ := fetchDecode_ok hfd
  obtain ⟨bytes, hi⟩ := List.head?_eq_some_iff.mp hi
  obtain ⟨rest, hlatches⟩ := hi ▸ registerBytes_begin_latches hd
  have hbyte : a = s.mem.read (s.pc.toNat + 1) := List.head_eq_of_cons_eq hlatches
  exact ⟨rfl, hpc, recognised_of_decode hd, hbyte.symm, ha⟩

/-- An illegal second operand byte stands two bytes after the opcode of MUL, ADD or CMP (R90). -/
theorem registerRange_b_justified {s : State} {i : Instr} {a b : Byte} (hfd : fetchDecode s = .ok i)
    (hi : i.registerBytes = [a, b]) (ha : a.toNat ≤ 7) (hb : 7 < b.toNat) :
    EngineError.JustifiedAt s (.registerRange s.pc .b b) := by
  obtain ⟨hpc, hd⟩ := fetchDecode_ok hfd
  obtain ⟨rest, hlatches⟩ := hi ▸ registerBytes_begin_latches hd
  have hbyteA : a = s.mem.read (s.pc.toNat + 1) := List.head_eq_of_cons_eq hlatches
  have hbyteB : b = s.mem.read (s.pc.toNat + 2) := List.head_eq_of_cons_eq (List.tail_eq_of_cons_eq hlatches)
  have hop : s.mem.read s.pc.toNat ∈ [0xA2#8, 0xA0#8, 0xA7#8] := decode_opcode hd ▸ opcode_of_two_registerBytes hi
  exact ⟨rfl, hpc, hop, hbyteA ▸ ha, hbyteB.symm, hb⟩

/-- HLT leaves HALTED one past its opcode byte (R55). -/
theorem hlt_statusJustified {s : State} (hfd : fetchDecode s = .ok .hlt) : (s.halt.skip 1).StatusJustified := by
  obtain ⟨hpc, hir⟩ := fetchDecode_hlt_iff.mp hfd
  have hpc' : (s.halt.skip 1).pc.toNat = s.pc.toNat + 1 := s.skip_pc_toNat hpc (by omega)
  have hmem : s.mem.read ((s.halt.skip 1).pc.toNat - 1) = 0x01#8 := by rw [hpc', Nat.add_sub_cancel, hir]
  exact ⟨by omega, by omega, hmem⟩

/-- The effect of a dispatched instruction on a RUNNING engine justifies the status it leaves. -/
theorem Effect.statusJustified {s t : State} {i : Instr} (h : Effect s i t) (hrun : s.status = .running)
    (hfd : fetchDecode s = .ok i) : t.StatusJustified := by
  cases h with
  | hlt => exact hlt_statusJustified hfd
  | illegalA hi ha => exact State.statusJustified_raise (registerRange_a_justified hfd hi ha)
  | illegalB hi ha hb => exact State.statusJustified_raise (registerRange_b_justified hfd hi ha hb)
  | jeq | jne => exact State.statusJustified_of_running ((branchIf_status _ _ s).trans hrun)
  | ldi | prn | mul | add | push | pop | call | ret | cmp | jmp => exact State.statusJustified_of_running hrun

/-! ### The invariant -/

/-- Settles O39: a stopped engine stays as it is, an error of the fetch or the decode is entered where the bytes at
`pc` cause it, and every effect keeps each clause. -/
theorem everyStepKeepsTheInvariant : Obligations.EveryStepKeepsTheInvariant := by
  intro s t hinv h
  rcases step_cases h with ⟨-, rfl⟩ | ⟨-, e, he, rfl⟩ | ⟨hrun, i, hfd, hexec⟩
  · exact hinv
  · exact ⟨hinv.memWf, hinv.pcRange, hinv.flLegal,
      State.statusJustified_raise (fetchDecode_error_justified hinv.pcRange he)⟩
  · have heff : Effect s i t := exec_effect hexec
    obtain ⟨hpc, -⟩ := fetchDecode_ok hfd
    exact ⟨heff.keeps_memWf hinv.memWf, heff.pc_le hpc, heff.keeps_flLegal hinv.flLegal,
      heff.statusJustified hrun hfd⟩

/-- Settles O37: each clause is evaluated at the reset values. -/
theorem invariantHoldsAtReset : Obligations.InvariantHoldsAtReset := ⟨rfl, by decide, by decide, trivial⟩

/-- A launch state is reset with the image loaded (R105). -/
theorem eq_load_of_launch {image : List Byte} {s : State} (h : launch image = some s) : s = State.reset.load image := by
  unfold launch at h
  split at h
  · exact (Option.some.inj h).symm
  · cases h

/-- Settles O38: loading changes memory alone, and keeps it canonical. -/
theorem invariantHoldsAtLaunch : Obligations.InvariantHoldsAtLaunch := by
  intro image s h
  obtain rfl := eq_load_of_launch h
  exact ⟨Memory.wf_place State.reset_mem_wf 0 image, invariantHoldsAtReset.pcRange, invariantHoldsAtReset.flLegal,
    State.statusJustified_of_running rfl⟩

/-- No justified status is FAULTED with an ALUError (R72, R88). -/
theorem State.Inv.no_aluError {s : State} (h : s.Inv) (pc : Pc) (c : AluCause) :
    s.status ≠ .faulted (.aluError pc c) := by
  intro hst
  have hj : s.StatusJustified := h.status
  simp only [State.StatusJustified, hst, EngineError.JustifiedAt] at hj

/-- Settles O40: the invariant holds at launch and along every run, and excludes every ALUError. -/
theorem noRunRaisesAluError : Obligations.NoRunRaisesAluError := by
  intro image s t k pc c hlaunch hrun
  have hinv : t.Inv := run_keeps everyStepKeepsTheInvariant (invariantHoldsAtLaunch image s hlaunch) hrun
  exact hinv.no_aluError pc c

/-- Settles O35: each item is evaluated; the seven registers below the pointer one by one. -/
theorem resetGivesTheTableOfValues : Obligations.ResetGivesTheTableOfValues :=
  ⟨fun _ => rfl, rfl, rfl, rfl, rfl, by decide, rfl, fun _ => rfl⟩

end Sys2Proof.Machine

/-! What a step does not read: unlisted registers, the flags but E, the output (spec/10_state.md R7, R12, R15). -/

namespace Sys2Proof.Machine

/-! ### Unlisted registers -/

/-- A register that is not listed is none of those listed. -/
theorem reg_ne_of_listed {q r : Reg} {a : Byte} {l : List Nat} (hq : q.val ∉ l) (ha : a.toNat = r.val)
    (hl : a.toNat ∈ l) : q ≠ r :=
  reg_ne_of_toNat_ne ha fun he => hq (he ▸ hl)

theorem reg_ne_sp_of_listed {q : Reg} {l : List Nat} (hq : q.val ∉ l) (hl : 7 ∈ l) : q ≠ 7 :=
  reg_ne_sp fun he => hq (he ▸ hl)

section UnlistedRegister

variable (s : State) {q r : Reg} (v : Byte)

theorem State.setReg_comm (w : Byte) (h : q ≠ r) : (s.setReg q v).setReg r w = (s.setReg r w).setReg q v := by
  simp only [State.setReg]
  rw [Vector.set_comm _ _ fun he => h (Fin.ext he)]

/-- An operation on two registers, into the first, commutes with the write of a third. -/
theorem State.setReg_op {x : Reg} (f : Byte → Byte → Byte) (hr : q ≠ r) (hx : q ≠ x) :
    (s.setReg q v).setReg r (f ((s.setReg q v).reg r) ((s.setReg q v).reg x)) =
      (s.setReg r (f (s.reg r) (s.reg x))).setReg q v := by
  rw [s.reg_setReg_other v hr.symm, s.reg_setReg_other v hx.symm, s.setReg_comm v _ hr]

theorem State.sp_setReg_other (h : q ≠ 7) : (s.setReg q v).sp = s.sp := by
  rw [State.sp_setReg, if_neg h]

theorem State.spDown_setReg (h : q ≠ 7) : (s.setReg q v).spDown = s.spDown.setReg q v := by
  rw [State.spDown, State.sp_setReg_other s v h]
  exact s.setReg_comm v _ h

theorem State.spUp_setReg (h : q ≠ 7) : (s.setReg q v).spUp = s.spUp.setReg q v := by
  rw [State.spUp, State.sp_setReg_other s v h]
  exact s.setReg_comm v _ h

theorem branchIf_setReg (c : Bool) (h : q ≠ r) : branchIf c r (s.setReg q v) = (branchIf c r s).setReg q v := by
  cases c with
  | true => exact congrArg (s.setReg q v).jump (s.reg_setReg_other v h.symm)
  | false => rfl

/-- The two writes of a pop commute with that of a register they do not name (R75). -/
theorem State.pop_setReg (w : Byte) (hr : q ≠ r) (h7 : q ≠ 7) :
    ((s.setReg q v).setReg r w).spUp = (s.setReg r w).spUp.setReg q v := by
  rw [s.setReg_comm v w hr, State.spUp_setReg _ v h7]

end UnlistedRegister

theorem Effect.of_eq {s t t' : State} {i : Instr} (h : Effect s i t) (ht : t = t') : Effect s i t' := ht ▸ h

/-- Giving a register of neither column another value first leaves the same effect on the rest of the state (R7). -/
theorem Effect.setReg_unlisted {s t : State} {i : Instr} {q : Reg} (v : Byte) (h : Effect s i t)
    (hread : q.val ∉ i.regsRead) (hwritten : q.val ∉ i.regsWritten) : Effect (s.setReg q v) i (t.setReg q v) := by
  cases h with
  | hlt => exact .hlt
  | ldi ha =>
    have hq := reg_ne_of_listed hwritten ha (.head _)
    exact (Effect.ldi ha).of_eq (congrArg (State.skip · 3) (s.setReg_comm v _ hq))
  | prn ha =>
    have hq := reg_ne_of_listed hread ha (.head _)
    rw [← s.reg_setReg_other v hq.symm]
    exact .prn ha
  | mul ha hb =>
    have hqa := reg_ne_of_listed hread ha (.head _)
    have hqb := reg_ne_of_listed hread hb (.tail _ (.head _))
    exact (Effect.mul ha hb).of_eq (congrArg (State.skip · 3) (s.setReg_op v (· * ·) hqa hqb))
  | add ha hb =>
    have hqa := reg_ne_of_listed hread ha (.head _)
    have hqb := reg_ne_of_listed hread hb (.tail _ (.head _))
    exact (Effect.add ha hb).of_eq (congrArg (State.skip · 3) (s.setReg_op v (· + ·) hqa hqb))
  | push ha =>
    have hq := reg_ne_of_listed hread ha (.tail _ (.head _))
    have h7 := reg_ne_sp_of_listed hread (.head _)
    have key := Effect.push (s := s.setReg q v) ha
    rw [s.spDown_setReg v h7, s.sp_setReg_other v h7, State.reg_setReg_other _ v hq.symm] at key
    exact key
  | pop ha =>
    have hq := reg_ne_of_listed hwritten ha (.head _)
    have h7 := reg_ne_sp_of_listed hread (.head _)
    have key := Effect.pop (s := s.setReg q v) ha
    rw [s.pop_setReg v _ hq h7, s.sp_setReg_other v h7] at key
    exact key
  | call ha =>
    have hq := reg_ne_of_listed hread ha (.tail _ (.head _))
    have h7 := reg_ne_sp_of_listed hread (.head _)
    have key := Effect.call (s := s.setReg q v) ha
    rw [s.spDown_setReg v h7, s.sp_setReg_other v h7, State.reg_setReg_other _ v hq.symm] at key
    exact key
  | ret ha =>
    have hq := reg_ne_of_listed hread ha (.tail _ (.head _))
    have h7 := reg_ne_sp_of_listed hread (.head _)
    have key := Effect.ret (s := s.setReg q v) ha
    rw [s.pop_setReg v _ hq h7, s.sp_setReg_other v h7, State.reg_setReg_other _ v hq.symm] at key
    exact key
  | cmp ha hb =>
    have hqa := reg_ne_of_listed hread ha (.head _)
    have hqb := reg_ne_of_listed hread hb (.tail _ (.head _))
    rw [← s.reg_setReg_other v hqa.symm, ← s.reg_setReg_other v hqb.symm]
    exact .cmp ha hb
  | jmp ha =>
    have hq := reg_ne_of_listed hread ha (.head _)
    rw [← s.reg_setReg_other v hq.symm]
    exact .jmp ha
  | jeq ha => exact (Effect.jeq ha).of_eq (branchIf_setReg s v _ (reg_ne_of_listed hread ha (.head _)))
  | jne ha => exact (Effect.jne ha).of_eq (branchIf_setReg s v _ (reg_ne_of_listed hread ha (.head _)))
  | illegalA hi ha => exact .illegalA hi ha
  | illegalB hi ha hb => exact .illegalB hi ha hb

/-- Settles O29: the effect is the same on the rest of the state, and effects are what `exec` answers. -/
theorem unlistedRegistersAreNeverRead : Obligations.UnlistedRegistersAreNeverRead :=
  fun _ _ _ _ v hread hwritten h => ((exec_effect h).setReg_unlisted v hread hwritten).exec_eq

/-! ### The flags but E, and the output -/

/-- Two states with one status whose fetch and decode answer alike step alike: a relation that holds of them, of the
states error entry leaves and of the effects of the instruction dispatched holds of the next states. -/
theorem step_related {s s' t : State} {R : State → State → Prop} (hstatus : s'.status = s.status)
    (hfetch : fetchDecode s' = fetchDecode s) (hstop : R s s') (hraise : ∀ e, R (s.raise e) (s'.raise e))
    (heff : ∀ i t, fetchDecode s = .ok i → Effect s i t → ∃ t', Effect s' i t' ∧ R t t')
    (h : step s = .next t) : ∃ t', step s' = .next t' ∧ R t t' := by
  rcases step_cases h with ⟨hrun, rfl⟩ | ⟨hrun, e, he, rfl⟩ | ⟨hrun, i, hi, hexec⟩
  · exact ⟨s', step_of_not_running (hstatus ▸ hrun), hstop⟩
  · exact ⟨_, step_eq_raise (hstatus.trans hrun) (hfetch.trans he), hraise e⟩
  · obtain ⟨t', heff', hR⟩ := heff i t hi (exec_effect hexec)
    exact ⟨t', (step_eq_exec (hstatus.trans hrun) (hfetch.trans hi)).trans heff'.exec_eq, hR⟩

/-- A branch neither reads nor writes `FL` (R12). -/
theorem branchIf_setFlags (c : Bool) (r : Reg) (s : State) (f : Byte) :
    branchIf c r (s.setFlags f) = (branchIf c r s).setFlags f := by
  cases c <;> rfl

/-- With another `FL` of the same E bit first, an effect is the same on the rest of the state; it leaves that `FL`,
or is CMP's, which overwrites it (R12). -/
theorem Effect.setFlags {s t : State} {i : Instr} {f : Byte} (h : Effect s i t) (hE : flagE f = flagE s.fl) :
    Effect (s.setFlags f) i (t.setFlags f) ∨ (Effect (s.setFlags f) i t ∧ ∃ a b, i = .cmp a b) := by
  cases h with
  | cmp ha hb => exact .inr ⟨.cmp ha hb, _, _, rfl⟩
  | hlt => exact .inl .hlt
  | ldi ha => exact .inl (.ldi ha)
  | prn ha => exact .inl (.prn ha)
  | mul ha hb => exact .inl (.mul ha hb)
  | add ha hb => exact .inl (.add ha hb)
  | push ha => exact .inl (.push ha)
  | pop ha => exact .inl (.pop ha)
  | call ha => exact .inl (.call ha)
  | ret ha => exact .inl (.ret ha)
  | jmp ha => exact .inl (.jmp ha)
  | jeq ha => exact .inl (by rw [← hE, ← branchIf_setFlags]; exact .jeq ha)
  | jne ha => exact .inl (by rw [← hE, ← branchIf_setFlags]; exact .jne ha)
  | illegalA hi ha => exact .inl (.illegalA hi ha)
  | illegalB hi ha hb => exact .inl (.illegalB hi ha hb)

/-- `t'` is `t` but for its flags `g`: the `f` put there, or those of `t` where the instruction at `s` is CMP. -/
def SameButFlags (s : State) (f : Byte) (t t' : State) : Prop :=
  ∃ g, t' = { t with fl := g } ∧ (g = f ∨ (g = t.fl ∧ ∃ a b, fetchDecode s = .ok (.cmp a b)))

/-- Settles O31: error entry keeps `FL`, and so does every effect but CMP's, which overwrites it. -/
theorem onlyTheEqualFlagIsRead : Obligations.OnlyTheEqualFlagIsRead := by
  intro s t f hE h
  have hput (u : State) : SameButFlags s f u (u.setFlags f) := ⟨f, rfl, .inl rfl⟩
  have heff : ∀ i u, fetchDecode s = .ok i → Effect s i u →
      ∃ u', Effect (s.setFlags f) i u' ∧ SameButFlags s f u u' := by
    intro i u hi hu
    rcases hu.setFlags hE with hsame | ⟨hover, a, b, rfl⟩
    · exact ⟨_, hsame, hput u⟩
    · exact ⟨u, hover, u.fl, rfl, .inr ⟨rfl, a, b, hi⟩⟩
  obtain ⟨t', ht', g, rfl, hg⟩ :=
    step_related (s := s) (s' := s.setFlags f) rfl rfl (hput s) (fun e => hput (s.raise e)) heff h
  exact ⟨g, ht', hg⟩

/-- `s` with the values `o` in front of its output. -/
def State.prependOut (s : State) (o : List Byte) : State := { s with out := o ++ s.out }

/-- An emission goes to the end of the output, whatever stands in front (R15). -/
theorem State.prependOut_emit (s : State) (o : List Byte) (v : Byte) :
    (s.emit v).prependOut o = (s.prependOut o).emit v := by
  simp [State.prependOut, State.emit]

theorem branchIf_prependOut (c : Bool) (r : Reg) (s : State) (o : List Byte) :
    branchIf c r (s.prependOut o) = (branchIf c r s).prependOut o := by
  cases c <;> rfl

/-- With values in front of the output first, an effect is the same, with those values in front (R15). -/
theorem Effect.prependOut {s t : State} {i : Instr} (h : Effect s i t) (o : List Byte) :
    Effect (s.prependOut o) i (t.prependOut o) := by
  cases h with
  | prn ha =>
    have key := Effect.prn (s := s.prependOut o) ha
    rw [← State.prependOut_emit] at key
    exact key
  | hlt => exact .hlt
  | ldi ha => exact .ldi ha
  | mul ha hb => exact .mul ha hb
  | add ha hb => exact .add ha hb
  | push ha => exact .push ha
  | pop ha => exact .pop ha
  | call ha => exact .call ha
  | ret ha => exact .ret ha
  | cmp ha hb => exact .cmp ha hb
  | jmp ha => exact .jmp ha
  | jeq ha => rw [← branchIf_prependOut]; exact .jeq ha
  | jne ha => rw [← branchIf_prependOut]; exact .jne ha
  | illegalA hi ha => exact .illegalA hi ha
  | illegalB hi ha hb => exact .illegalB hi ha hb

/-- Settles O34: fetch, decode, error entry and every effect leave the values in front where they are. -/
theorem outputIsNeverRead : Obligations.OutputIsNeverRead := by
  intro s t o h
  obtain ⟨t', ht', rfl⟩ :=
    step_related (s := s) (s' := s.prependOut o) (R := fun u u' => u' = u.prependOut o) rfl rfl rfl
      (fun _ => rfl) (fun _ _ _ heff => ⟨_, heff.prependOut o, rfl⟩) h
  exact ht'

end Sys2Proof.Machine

/-! Sequences of instructions (spec/95_test_vectors.md section 1.3, spec/20_memory.md R35, spec/45_control_flow.md
R80). -/

namespace Sys2Proof.Machine

/-- Settles O43: PRN emits the register as LDI left it. -/
theorem ldiThenPrnOutputsTheImmediate : Obligations.LdiThenPrnOutputsTheImmediate := by
  intro s r a v ha
  refine ⟨_, _, exec_ldi_legal s v ha, exec_prn_legal _ ha, ?_⟩
  rw [State.skip_out, State.emit_out, State.skip_out, State.setReg_out, State.reg_skip, State.reg_setReg_same]

/-- PUSH leaves the register it pushed, as it now reads, in the cell at the pointer (R76, D18). -/
theorem push_top {s t : State} {r : Reg} {a : Byte} (hwf : s.mem.wf = true) (ha : a.toNat = r.val)
    (h : exec (.push a) s = .next t) : t.mem.read t.sp.toNat = t.reg r := by
  rw [exec_push_legal s ha] at h
  cases h
  exact (congrArg (fun p : Byte => Memory.read _ p.toNat) s.sp_spDown).trans (Memory.read_write_same hwf _ _)

/-- Settles O41: the pop reads the cell the push wrote, and its increment undoes the decrement. -/
theorem pushThenPopRoundTrips : Obligations.PushThenPopRoundTrips := by
  intro s ra rb a b hwf ha hb ha7 hb7
  obtain ⟨t, ht, htsp, htreg, -⟩ := pushStoresTheRegister s ra a hwf ha
  obtain ⟨u, hu, hureg, husp, -⟩ := popLoadsTheRegister t rb b hb
  refine ⟨t, u, ht, hu, ?_, ?_⟩
  · rw [hureg hb7, push_top hwf ha ht, htreg ra ha7]
  · rw [husp, if_neg hb7, htsp, BitVec.sub_add_cancel]

/-- Settles O42: the cell at the pointer still holds the return address, `pc + 2`, and the pop's increment undoes the
decrement. -/
theorem retResumesAfterTheCall : Obligations.RetResumesAfterTheCall := by
  intro s ra a hwf hpc ha
  obtain ⟨t, ht, -, htsp, -, htop, -⟩ := callPushesTheReturnAddress s ra a hwf hpc ha
  refine ⟨t, ht, fun u rr r hsp hcell hr hr7 => ?_⟩
  obtain ⟨w, hw, -, hwsp, hwpc, -⟩ := retPopsThroughTheRegister u rr r hr
  refine ⟨w, hw, ?_, ?_⟩
  · have hbyte : (u.mem.read u.sp.toNat).toNat = s.pc.toNat + 2 := by rw [hcell, htsp, htop]
    rw [hwpc, if_neg hr7, ← hbyte]
    exact u.jump_pc_toNat _
  · rw [hwsp, if_neg hr7, hsp, htsp, BitVec.sub_add_cancel]

/-- Settles O44: each latch is the cell at its own address, and the cell at the pointer holds the pushed byte. -/
theorem nextFetchSeesThePushedByte : Obligations.NextFetchSeesThePushedByte := by
  intro s t r a ir x y hwf ha h hfetch
  have htop : t.mem.read t.sp.toNat = t.reg r := push_top hwf ha h
  obtain ⟨-, rfl, rfl, rfl⟩ := fetch_ok hfetch
  exact ⟨fun hpc => hpc ▸ htop, fun hpc => hpc ▸ htop, fun hpc => hpc ▸ htop⟩

/-- A jump to the address where `pc` stands changes nothing (R80). -/
theorem State.jump_self {s : State} {v : Byte} (h : v.toNat = s.pc.toNat) : s.jump v = s := by
  have hpc : (s.jump v).pc = s.pc := BitVec.eq_of_toNat_eq ((s.jump_pc_toNat v).trans h)
  rw [State.jump_pc] at hpc
  rw [State.jump, hpc]

/-- Settles O45: the step is that jump, so the state steps to itself. -/
theorem jumpToSelfNeverEnds : Obligations.JumpToSelfNeverEnds := by
  intro s r a b k hl ha hself
  refine run_of_step_self ?_ k
  rw [hl.step_eq_exec (i := .jmp a) rfl, exec_jmp_legal s ha, State.jump_self hself]

end Sys2Proof.Machine

/-! Memory: canonical lists are determined by what they read as, and the accesses fail fast (spec/20_memory.md R24,
R25, D2). -/

namespace Sys2Proof.Machine

/-- A list is canonical from `lo` on when its first entry is legal and the rest is canonical above it. -/
theorem Memory.wfFrom_cons_iff {lo k : Nat} {v : Byte} {rest : Memory} :
    Memory.wfFrom lo ((k, v) :: rest) = true ↔ lo ≤ k ∧ k < 256 ∧ v ≠ 0 ∧ Memory.wfFrom (k + 1) rest = true := by
  simp only [Memory.wfFrom, Bool.and_eq_true, decide_eq_true_eq, and_assoc]
  rfl

@[simp] theorem Memory.read_cons_same (k : Nat) (v : Byte) (rest : Memory) : Memory.read ((k, v) :: rest) k = v :=
  if_pos rfl

@[simp] theorem Memory.read_cons_other {k x : Nat} (v : Byte) (rest : Memory) (h : x ≠ k) :
    Memory.read ((k, v) :: rest) x = rest.read x :=
  if_neg h

/-- A canonical memory is canonical from its first address on. -/
theorem Memory.wfFrom_head {lo k : Nat} {v : Byte} {rest : Memory} (h : Memory.wfFrom lo ((k, v) :: rest) = true) :
    Memory.wfFrom k ((k, v) :: rest) = true := by
  obtain ⟨-, hentry⟩ := Memory.wfFrom_cons_iff.mp h
  exact Memory.wfFrom_cons_iff.mpr ⟨le_rfl, hentry⟩

/-- The first entry of a memory is not zero, so a memory that reads alike does not begin above it. -/
theorem Memory.le_of_read_eq {m rest : Memory} {lo lo' k : Nat} {v : Byte}
    (h : Memory.wfFrom lo ((k, v) :: rest) = true) (hm : Memory.wfFrom lo' m = true)
    (hread : ∀ x, x < 256 → Memory.read ((k, v) :: rest) x = m.read x) : lo' ≤ k := by
  obtain ⟨-, hk, hv, -⟩ := Memory.wfFrom_cons_iff.mp h
  by_contra hlt
  have hzero := hread k hk
  rw [Memory.read_cons_same, Memory.read_below hm (by omega)] at hzero
  exact hv hzero

/-- A canonical memory with an entry does not read like the empty one. -/
theorem Memory.not_read_eq_nil {rest : Memory} {lo k : Nat} {v : Byte}
    (h : Memory.wfFrom lo ((k, v) :: rest) = true) :
    ¬ ∀ x, x < 256 → Memory.read ((k, v) :: rest) x = Memory.read [] x := by
  intro hread
  obtain ⟨-, hk, -, -⟩ := Memory.wfFrom_cons_iff.mp h
  exact absurd (Memory.le_of_read_eq (lo' := 256) h rfl hread) (by omega)

/-- Canonical memories that read alike have the same first entry, and so on down the list. -/
theorem Memory.eq_of_read_eq {m m' : Memory} {lo lo' : Nat} (h : Memory.wfFrom lo m = true)
    (h' : Memory.wfFrom lo' m' = true) (hread : ∀ x, x < 256 → m.read x = m'.read x) : m = m' := by
  induction m generalizing m' lo lo' with
  | nil =>
    cases m' with
    | nil => rfl
    | cons c' rest' => exact absurd (fun x hx => (hread x hx).symm) (Memory.not_read_eq_nil h')
  | cons c rest ih =>
    obtain ⟨k, v⟩ := c
    cases m' with
    | nil => exact absurd hread (Memory.not_read_eq_nil h)
    | cons c' rest' =>
      obtain ⟨k', v'⟩ := c'
      obtain ⟨-, hk, -, hrest⟩ := Memory.wfFrom_cons_iff.mp h
      obtain ⟨-, -, -, hrest'⟩ := Memory.wfFrom_cons_iff.mp h'
      obtain rfl : k = k' :=
        le_antisymm (Memory.le_of_read_eq h' (Memory.wfFrom_head h) fun x hx => (hread x hx).symm)
          (Memory.le_of_read_eq h (Memory.wfFrom_head h') hread)
      obtain rfl : v = v' := by simpa using hread k hk
      have htail : rest = rest' := ih hrest hrest' fun x hx => by
        by_cases hxk : x = k
        · rw [Memory.read_below hrest (by omega), Memory.read_below hrest' (by omega)]
        · simpa [hxk] using hread x hx
      rw [htail]

/-- Settles O46: both lists are canonical from address 0 on. -/
theorem equalMemoriesAreEqualLists : Obligations.EqualMemoriesAreEqualLists :=
  fun _ _ => Memory.eq_of_read_eq

@[simp] theorem memWrite_outOfRange (s : State) {addr : Nat} (v : Byte) (h : 256 ≤ addr) :
    memWrite s addr v = .error (.memoryRange s.pc addr) := by
  simp [memWrite, Config.memSize, Nat.not_lt.mpr h]

/-- Settles O47: the range test decides, and a write to canonical memory changes its own cell only. -/
theorem memoryAccessesFailFast : Obligations.MemoryAccessesFailFast :=
  ⟨fun s _ v hx => ⟨memRead_outOfRange s hx, memWrite_outOfRange s v hx⟩,
    fun s x v hwf hx => ⟨memRead_inRange s hx, _, memWrite_inRange s v hx, rfl, Memory.wf_write hwf hx,
      fun y => Memory.read_write hwf x y v⟩⟩

end Sys2Proof.Machine

/-! The ALU block on its own (spec/42_alu.md R59, R65 to R69). -/

namespace Sys2Proof.Machine

@[simp] theorem alu_not (a b : Reg) (s : State) : alu .not a b s = .ok (s.setReg a (~~~(s.reg a))) := rfl

@[simp] theorem alu_shl (a b : Reg) (s : State) :
    alu .shl a b s = .ok (s.setReg a (s.reg a <<< (s.reg b).toNat)) := rfl

@[simp] theorem alu_shr (a b : Reg) (s : State) :
    alu .shr a b s = .ok (s.setReg a (s.reg a >>> (s.reg b).toNat)) := rfl

theorem alu_mod_zero {a b : Reg} {s : State} (h : s.reg b = 0) :
    alu .mod a b s = .error (.aluError s.pc .divideByZero) := by
  simp [alu, aluCompute, h]

theorem alu_mod_nonzero {a b : Reg} {s : State} (h : s.reg b ≠ 0) :
    alu .mod a b s = .ok (s.setReg a (BitVec.ofNat 8 ((s.reg a).toNat % (s.reg b).toNat))) := by
  simp only [alu, aluCompute, if_neg h]

/-- The remainder of two bytes fits a byte (R68). -/
theorem remainder_toNat (x y : Byte) : (BitVec.ofNat 8 (x.toNat % y.toNat)).toNat = x.toNat % y.toNat := by
  rw [BitVec.toNat_ofNat, Nat.mod_eq_of_lt ((Nat.mod_le _ _).trans_lt x.isLt)]

/-- Settles O49: each operation writes the one value its equation names, whose value as a number the library gives. -/
theorem aluComplementShiftsAndModulo : Obligations.AluComplementShiftsAndModulo := by
  intro s a b
  refine ⟨⟨_, alu_not a b s, BitVec.toNat_not⟩, ⟨_, alu_shl a b s, ?shl⟩, ⟨_, alu_shr a b s, ?shr⟩, fun h => ?zero,
    fun h => ?nonzero⟩
  case shl => rw [BitVec.toNat_shiftLeft, Nat.shiftLeft_eq]
  case shr => rw [BitVec.toNat_ushiftRight, Nat.shiftRight_eq_div_pow]
  case zero => exact alu_mod_zero (BitVec.eq_of_toNat_eq h)
  case nonzero => exact ⟨_, alu_mod_nonzero fun h0 => h (by rw [h0]; rfl), remainder_toNat _ _⟩

/-- NOT checks its first operand byte alone (R65, D4). -/
theorem aluBlock_not (a b : Byte) (s : State) :
    aluBlock (.named .not) a b s = withReg s .a a fun ra => alu .not ra ra s := rfl

/-- Every other named operation checks both operand bytes (R59). -/
theorem aluBlock_binary {op : AluOp} (h : op ≠ .not) (a b : Byte) (s : State) :
    aluBlock (.named op) a b s = withRegs s a b fun ra rb => alu op ra rb s := by
  cases op with
  | not => exact absurd rfl h
  | add | mul | and | or | xor | shl | shr | mod => rfl

/-- A named operation on two legal bytes is that operation on those registers; NOT ignores the second (R65). -/
theorem aluBlock_legal (op : AluOp) (s : State) {a b : Byte} {ra rb : Reg} (ha : a.toNat = ra.val)
    (hb : b.toNat = rb.val) : aluBlock (.named op) a b s = alu op ra rb s := by
  by_cases hop : op = .not
  · subst hop
    rw [aluBlock_not, withReg_legal s .a _ ha, alu_not, alu_not]
  · rw [aluBlock_binary hop, withRegs_legal s _ ha hb]

/-- A first byte above 7 is refused, by NOT too. -/
theorem aluBlock_illegal_a (op : AluOp) (s : State) {a : Byte} (b : Byte) (h : 7 < a.toNat) :
    aluBlock (.named op) a b s = .error (.registerRange s.pc .a a) := by
  by_cases hop : op = .not
  · subst hop
    rw [aluBlock_not, withReg_illegal s .a _ h]
  · rw [aluBlock_binary hop, withRegs, withReg_illegal s .a _ h]

/-- Settles O50: by the selector, and for a named operation by the validation of its operand bytes. -/
theorem aluBlockSelection : Obligations.AluBlockSelection := by
  refine ⟨fun _ _ _ => rfl, fun s a b ra ha => ?_, fun op s a b ra rb ha hb => aluBlock_legal op s ha hb⟩
  rw [aluBlock_not, withReg_legal s .a _ ha, alu_not]

/-- Settles O54: the first check refuses `a`, whatever the operation, and the second `b`. -/
theorem aluBlockRefusesBytesAboveSeven : Obligations.AluBlockRefusesBytesAboveSeven := by
  refine ⟨fun op s a b h => aluBlock_illegal_a op s b h, fun op s a b hop ha hb => ?_⟩
  rw [aluBlock_binary hop, withRegs_illegal_b s _ ha hb]

end Sys2Proof.Machine

/-! Status codes, the rendering of an output value and the trace (spec/10_state.md R19, R23, spec/60_exceptions.md
R86). -/

namespace Sys2Proof.Machine

/-- Settles O51: each code is read off its status. -/
theorem statusCodes : Obligations.StatusCodes :=
  ⟨rfl, rfl, fun _ _ _ _ _ _ => ⟨rfl, rfl, rfl, rfl, rfl, rfl⟩⟩

/-! ### Decimal digits -/

theorem digit_toNat (n : Nat) : (digit n).toNat = 48 + n % 10 := by
  have hvalid : (48 + n % 10).isValidChar := .inl (by omega)
  rw [digit, Char.toNat_ofNat, if_pos hvalid]

theorem digit_isDigit (n : Nat) : '0' ≤ digit n ∧ digit n ≤ '9' := by
  have h := digit_toNat n
  rw [Char.le_def, Char.le_def, UInt32.le_iff_toNat_le, UInt32.le_iff_toNat_le]
  simp only [Char.toNat_val]
  rw [h]
  exact ⟨Nat.le_add_right 48 _, by show _ ≤ 57; omega⟩

/-- Only a multiple of ten ends in the digit 0. -/
theorem mod_eq_zero_of_digit {n : Nat} (h : digit n = '0') : n % 10 = 0 := by
  have hn := digit_toNat n
  rw [h] at hn
  exact (Nat.add_left_cancel hn).symm

/-- The three forms of a rendering, by the number of digits (R19). -/
theorem render_cases (v : Byte) :
    (v.toNat < 10 ∧ render v = [digit v.toNat] ++ ['\n']) ∨
      (10 ≤ v.toNat ∧ v.toNat < 100 ∧ render v = [digit (v.toNat / 10), digit v.toNat] ++ ['\n']) ∨
      (100 ≤ v.toNat ∧
        render v = [digit (v.toNat / 100), digit (v.toNat / 10), digit v.toNat] ++ ['\n']) := by
  rcases (by omega : v.toNat < 10 ∨ (10 ≤ v.toNat ∧ v.toNat < 100) ∨ 100 ≤ v.toNat) with h | ⟨h10, h⟩ | h
  · exact .inl ⟨h, by simp [render, h]⟩
  · exact .inr (.inl ⟨h10, h, by simp [render, h, Nat.not_lt.mpr h10]⟩)
  · exact .inr (.inr ⟨h, by simp [render, show ¬ v.toNat < 10 by omega, show ¬ v.toNat < 100 by omega]⟩)

/-- Settles O52: in each form the digits' values add up to the byte, and a first digit 0 of two or three would put the
value below the range of the form. -/
theorem outputRendersAsDecimal : Obligations.OutputRendersAsDecimal := by
  intro v
  have hv := v.isLt
  rcases render_cases v with ⟨h, hr⟩ | ⟨h10, h, hr⟩ | ⟨h, hr⟩
  · refine ⟨_, hr, ?_, by simp [digit_isDigit], by simp, fun h0 => ?_⟩
    · simp only [numeralValue, List.foldl, digit_toNat]
      omega
    · rw [Option.some.inj h0]
  · refine ⟨_, hr, ?_, by simp [digit_isDigit], by simp, fun h0 => ?_⟩
    · simp only [numeralValue, List.foldl, digit_toNat]
      omega
    · have hlead := mod_eq_zero_of_digit (Option.some.inj h0)
      omega
  · refine ⟨_, hr, ?_, by simp [digit_isDigit], by simp, fun h0 => ?_⟩
    · simp only [numeralValue, List.foldl, digit_toNat]
      omega
    · have hlead := mod_eq_zero_of_digit (Option.some.inj h0)
      omega

/-! ### The trace -/

theorem State.traceByte_inRange (s : State) {x : Nat} (h : x < 256) : s.traceByte x = some (s.mem.read x) := if_pos h

theorem State.traceByte_above (s : State) {x : Nat} (h : 256 ≤ x) : s.traceByte x = none := if_neg (Nat.not_lt.mpr h)

/-- Settles O53: each of the three bytes is shown where its address is in range. -/
theorem traceShowsPcBytesAndRegisters : Obligations.TraceShowsPcBytesAndRegisters := by
  intro s
  refine ⟨rfl, rfl, fun h => ?_, fun h => ?_, fun h => ?_, fun h => ?_⟩
  · rw [State.trace, s.traceByte_inRange (by omega), s.traceByte_inRange (by omega), s.traceByte_inRange (by omega)]
  · rw [State.trace, h, s.traceByte_inRange (by omega), s.traceByte_inRange (by omega), s.traceByte_above (by omega)]
  · rw [State.trace, h, s.traceByte_inRange (by omega), s.traceByte_above (by omega), s.traceByte_above (by omega)]
  · rw [State.trace, h, s.traceByte_above (by omega), s.traceByte_above (by omega), s.traceByte_above (by omega)]

end Sys2Proof.Machine
